-- ==== Sys2Proof/Word.lean ====
section
/-! DEFINITION. The bus word and the byte (10_state.md R20: 32-bit scalar registers, byte buffers). -/

namespace Sys2Proof

/-- A byte of a buffer (00_scope.md R15: `b < 256`). -/
abbrev Byte := BitVec 8

/-- A scalar register, a bus word and a command word (10_state.md R20, 30_encoding.md R80). -/
abbrev Word := BitVec 32

end Sys2Proof
end

