-- ==== Sys2Proof/Config.lean ====
section
/-! DEFINITION. What a build of the block and its platform fix: the modulus width `W` and the window address
`BASE` (00_scope.md R9, R11), with the constants derived from `W` (R10). The spec leaves no value open that an
instruction could produce, so there is no free value here. -/

namespace Sys2Proof

/-- The parameters of one machine. No transaction and no reset changes them (10_state.md R25). -/
structure Config where
  /-- `W`, the modulus width in bytes (00_scope.md R9). -/
  width : Nat
  /-- `BASE`, the address of the register window in the host's address space (00_scope.md R11). -/
  base : Nat
  deriving DecidableEq, Repr

namespace Config

/-- The legal widths (00_scope.md R9): `W mod 4 = 0` and `4 <= W <= 2040`. -/
abbrev Legal (c : Config) : Prop := c.width % 4 = 0 ∧ 4 ≤ c.width ∧ c.width ≤ 2040

/-- `RECLEN = 12 + 2*W` (00_scope.md R10; 524 for `W = 256`, 90_conflicts.md C1). -/
def recLen (c : Config) : Nat := 12 + 2 * c.width

/-- `MSWVAL = W / 4` (00_scope.md R10). -/
def mswVal (c : Config) : Nat := c.width / 4

/-- `BECAP = 2*W` (00_scope.md R10). -/
def beCap (c : Config) : Nat := 2 * c.width

/-- The reference build: `W = 256`, the spec's default (00_scope.md R9, log entry 1), with `BASE = 0`
(DESIGN CHOICE, log entry 2). -/
def reference : Config := { width := 256, base := 0 }

end Config

end Sys2Proof
end

