-- ==== Sys2Proof/Machine/HostProgram.lean ====
section
/-! DEFINITION. What the host can say to the block: one bus access, and one line of the host's program
(30_encoding.md R86). Labels are numbers (log entry 18). -/

namespace Sys2Proof.Machine

/-- One bus access as the host drives it: the window offset, the access width in bytes and the byte enables.
The block takes only 4 bytes with all four enables, and answers the rest with a bus error (20_memory.md R63). -/
structure Access where
  off : Nat
  bytes : Nat
  lanes : BitVec 4
  deriving DecidableEq, Repr

/-- The 32-bit access at a window offset, the only kind the host notation writes (30_encoding.md R86). -/
def Access.word32 (off : Nat) : Access := { off := off, bytes := 4, lanes := 0xF }

/-- A whole bus transaction (40_host_interface.md R108). -/
inductive Transaction where
  | read (a : Access)
  | write (a : Access) (v : Word)
  deriving DecidableEq, Repr

/-- One line of a host program (30_encoding.md R86). `hK` is one of the eight host variables h0 to h7. -/
inductive HostLine where
  /-- `wr OFF, VAL`: one bus write. -/
  | wr (a : Access) (v : Word)
  /-- `rd OFF -> hK`: one bus read into a host variable. -/
  | rd (a : Access) (k : Fin 8)
  /-- `beq hK, IMM, LABEL`. -/
  | beq (k : Fin 8) (imm : Word) (l : Nat)
  /-- `bne hK, IMM, LABEL`. -/
  | bne (k : Fin 8) (imm : Word) (l : Nat)
  /-- `LABEL:`, no transaction. -/
  | label (l : Nat)
  /-- `halt`: the host program ends. -/
  | halt
  deriving DecidableEq, Repr

/-- The host agent: its program, the line it stands at and its variables h0 to h7. It is outside the block
(10_state.md R22). -/
structure HostAgent where
  prog : List HostLine
  line : Nat
  vars : Vector Word 8
  deriving DecidableEq, Repr

/-- The line holding label `l`, counted from the start of the program. -/
def findLabel : List HostLine → Nat → Option Nat
  | [], _ => none
  | x :: rest, l => if x = .label l then some 0 else (findLabel rest l).map (· + 1)

end Sys2Proof.Machine
end

