-- ==== Sys2Proof/Syntax.lean ====
section
/-! DEFINITION. The six commands of spec/opcode_table.json. A command word carries no operand (30_encoding.md R82). -/

namespace Sys2Proof

/-- The block's commands (30_encoding.md R83), one constructor per row of the opcode table. -/
inductive Instr where
  /-- LOAD_N, 41_montgomery.md R124. -/
  | loadN
  /-- N0INV, 41_montgomery.md R130. -/
  | n0inv
  /-- RR, 41_montgomery.md R136. -/
  | rr
  /-- ENCODE, 42_codec.md R151. -/
  | encode
  /-- DECODE, 42_codec.md R153. -/
  | decode
  /-- CONVERT, 43_convert.md R170. -/
  | convert
  deriving DecidableEq, Repr

end Sys2Proof
end

