-- ==== Sys2Proof/WellFormed.lean ====
section
/-! DEFINITION. What is well formed: a build (00_scope.md R9), a command, a line of the host notation and a host
program (30_encoding.md R86). Each check is a Bool. -/

namespace Sys2Proof

/-- A command has no operand that could be out of range (30_encoding.md R82), so every one is well formed. The
match has an arm per constructor, so that a new command must answer here. -/
def Instr.wf : Instr → Bool
  | .loadN => true
  | .n0inv => true
  | .rr => true
  | .encode => true
  | .decode => true
  | .convert => true

/-- A legal build (00_scope.md R9; 93_implementation_defined.md U11). -/
def Config.wf (c : Config) : Bool := decide c.Legal

namespace Machine

/-- An access of the host notation: 32 bits, all lanes, at an offset of the window (30_encoding.md R86,
20_memory.md R61). -/
def Access.wf (a : Access) : Bool := a.bytes == 4 && a.lanes == 0xF && decide (a.off < 0x5000)

/-- A line of the host notation inside the program `p`: its access is one of the notation's, and a branch goes
to a label that stands in `p`. -/
def HostLine.wf (p : List HostLine) : HostLine → Bool
  | .wr a _ => a.wf
  | .rd a _ => a.wf
  | .beq _ _ l => (findLabel p l).isSome
  | .bne _ _ l => (findLabel p l).isSome
  | .label _ => true
  | .halt => true

/-- No label stands twice. -/
def labelsDistinct : List HostLine → Bool
  | [] => true
  | .label l :: rest => (findLabel rest l).isNone && labelsDistinct rest
  | _ :: rest => labelsDistinct rest

/-- A well-formed host program (30_encoding.md R86). -/
def hostProgramWf (p : List HostLine) : Bool := p.all (HostLine.wf p) && labelsDistinct p

end Machine

end Sys2Proof
end

