-- ==== Sys2Proof/Decode.lean ====
section
/-! DEFINITION. The CMD32 decoder, total on all 2^32 words (30_encoding.md R80, R83 to R85), and the encoder. -/

namespace Sys2Proof

/-- Why a command word is ILLEGAL (30_encoding.md R84). Either reason raises IllegalCommand when the word is
written to CMD. -/
inductive DecodeError where
  /-- `v[31:8] != 0`. -/
  | reservedBits
  /-- `v[31:8] = 0` and the opcode is not in the map of R83. -/
  | unknownOpcode
  deriving DecidableEq, Repr

/-- The field OPC, bits 7:0 (30_encoding.md R80). -/
def opcField (v : Word) : BitVec 8 := v.extractLsb' 0 8

/-- The field RSVD, bits 31:8 (30_encoding.md R80). -/
def rsvdField (v : Word) : BitVec 24 := v.extractLsb' 8 24

/-- The opcode map (30_encoding.md R83). -/
def opcodeMap (opc : BitVec 8) : Option Instr :=
  if opc = 0x01 then some .loadN
  else if opc = 0x02 then some .n0inv
  else if opc = 0x03 then some .rr
  else if opc = 0x04 then some .encode
  else if opc = 0x05 then some .decode
  else if opc = 0x06 then some .convert
  else none

/-- `decode` of 30_encoding.md R85. -/
def decode (v : Word) : Except DecodeError Instr :=
  if rsvdField v ≠ 0 then .error .reservedBits
  else
    match opcodeMap (opcField v) with
    | some i => .ok i
    | none => .error .unknownOpcode

/-- The opcode of a command (30_encoding.md R83). -/
def Instr.opc : Instr → BitVec 8
  | .loadN => 0x01
  | .n0inv => 0x02
  | .rr => 0x03
  | .encode => 0x04
  | .decode => 0x05
  | .convert => 0x06

/-- The command word: RSVD zero above OPC (30_encoding.md R80). -/
def encode (i : Instr) : Word := (0 : BitVec 24) ++ i.opc

/-- The host's reading of an opcode-table row: the low `nbits` bits of `w`, as one command word. A command word is
exactly 32 bits (30_encoding.md R81), so a number that needs more is none. -/
def decodeTableWord (nbits w : Nat) : Option Instr :=
  let v := w % 2 ^ nbits
  if v < 2 ^ 32 then
    match decode (BitVec.ofNat 32 v) with
    | .ok i => some i
    | .error _ => none
  else none

end Sys2Proof
end

