-- ==== Sys2Proof/Machine/State.lean ====
section
/-! DEFINITION. The state of the machine (10_state.md R20 to R39), its named updates, why a step can stop, and the
state after reset (70_reset_and_hazards.md R200). -/

namespace Sys2Proof.Machine

/-- Why a step stops the machine. Both reasons are the spec's own choice of treatment. -/
inductive Fault where
  /-- A bus error at a window offset: a wrong width, partial byte enables, a misaligned or an unmapped offset
  (60_exceptions.md R187). Raised by a bus read or write; "A model makes a bus error a fault of the host's step".
  Safe: the block is unchanged, and the model stops where a platform might go on (log entry 4). -/
  | busError (off : Nat)
  /-- A read of a buffer byte nothing has written since reset, at a window offset (70_reset_and_hazards.md R201).
  Raised by a bus read of such a word and by a command that reads such a byte.
  Safe: the model stops where the hardware goes on with an unspecified byte (log entry 3). -/
  | unwrittenByte (off : Nat)
  deriving DecidableEq, Repr

/-- Why a step has no meaning in the model. -/
inductive Refusal where
  /-- An instruction that has no meaning yet. Raised by exec's arms only; no arm does. Safe. -/
  | notModelled (mnemonic : String)
  /-- The build's width is not legal (00_scope.md R9, 93_implementation_defined.md U11: "refuse" to instantiate the
  model). Raised by step. Safe. -/
  | illegalWidth (w : Nat)
  /-- The host's access is outside `[BASE, BASE + 0x5000)`: "the platform's and not the block's" (20_memory.md R65).
  Raised by a host line. Safe. -/
  | outsideWindow (off : Nat)
  /-- The host program branches to a label that stands nowhere in it: not a program of the notation
  (30_encoding.md R86). Raised by a host line. Safe. -/
  | undefinedLabel (l : Nat)
  deriving DecidableEq, Repr

/-- The bytes of the four buffers written since reset: (window offset, byte), offsets strictly rising. An unlisted
offset holds no value (70_reset_and_hazards.md R201; the written bit of 10_state.md R39 is being listed). -/
abbrev Memory := List Host.Cell

/-- The whole machine. -/
structure State where
  /-- The build and platform parameters: CONFIG and RECLEN are read from it (10_state.md R25, R26). -/
  cfg : Config
  /-- STATUS.ERR (10_state.md R24). -/
  err : BitVec 4
  /-- N0INV (10_state.md R27). -/
  n0inv : Word
  /-- EXP (10_state.md R28). -/
  exp : Word
  /-- MSW (10_state.md R29). -/
  msw : Word
  /-- REC_VALID (10_state.md R30). -/
  recValid : Word
  /-- BE_LEN (10_state.md R32). -/
  beLen : Word
  /-- N_BUF, RR_BUF, REC_BUF and BE_BUF at their window offsets (10_state.md R33 to R36). -/
  mem : Memory
  /-- The levels the reset input shows to the coming steps, true for asserted; an empty list is a reset input that
  stays released (70_reset_and_hazards.md R200, log entry 9). -/
  resetIn : List Bool
  /-- The host agent (00_scope.md R19, 30_encoding.md R86). -/
  host : HostAgent
  deriving DecidableEq, Repr

namespace State

/-- `x[STATUS] <- c`, the ERR field (00_scope.md R15). -/
def setErr (s : State) (c : BitVec 4) : State := { s with err := c }

/-- `x[N0INV] <- v`. -/
def setN0inv (s : State) (v : Word) : State := { s with n0inv := v }

/-- `x[EXP] <- v`. -/
def setExp (s : State) (v : Word) : State := { s with exp := v }

/-- `x[MSW] <- v`. -/
def setMsw (s : State) (v : Word) : State := { s with msw := v }

/-- `x[REC_VALID] <- v`. -/
def setRecValid (s : State) (v : Word) : State := { s with recValid := v }

/-- `x[BE_LEN] <- v`. -/
def setBeLen (s : State) (v : Word) : State := { s with beLen := v }

/-- The buffers become `m`. -/
def setMem (s : State) (m : Memory) : State := { s with mem := m }

/-- What the reset input shows from now on. -/
def setResetIn (s : State) (r : List Bool) : State := { s with resetIn := r }

/-- The host agent becomes `h`. -/
def setHost (s : State) (h : HostAgent) : State := { s with host := h }

/-- The block of build `c` right after reset (10_state.md R38, 70_reset_and_hazards.md R200), beside a host that has
no program (log entry 6) and a released reset input (log entry 9). -/
def resetOf (c : Config) : State :=
  { cfg := c, err := 0, n0inv := 0, exp := 0, msw := 0, recValid := 0, beLen := 0, mem := [], resetIn := [],
    host := { prog := [], line := 0, vars := Vector.replicate 8 0 } }

/-- The machine right after reset, at the spec's default width (log entries 1, 2). -/
def reset : State := resetOf Config.reference

end State

end Sys2Proof.Machine
end

