-- ==== Sys2Proof/Machine/Flags.lean ====
section
/-! DEFINITION. STATUS, the block's only status state (10_state.md R31): the outcome codes (60_exceptions.md R180)
and the word a read of STATUS gives (10_state.md R24). -/

namespace Sys2Proof.Machine

/-- The outcome of a command (60_exceptions.md R180). -/
inductive ErrCode where
  | ok
  | invalidModulus
  | sizeMismatch
  | truncatedInput
  | illegalCommand
  | badLength
  deriving DecidableEq, Repr

/-- The code in STATUS.ERR (60_exceptions.md R180). -/
def errCodeBits : ErrCode → BitVec 4
  | .ok => 0
  | .invalidModulus => 1
  | .sizeMismatch => 2
  | .truncatedInput => 3
  | .illegalCommand => 4
  | .badLength => 5

/-- `zext_32(x[STATUS][3:0])`: bits 31:4 read as zero (10_state.md R24, 40_host_interface.md R100). -/
def statusWord (s : State) : Word := s.err.zeroExtend 32

/-- CONFIG: `W` in bits 15:0, bits 31:16 zero (10_state.md R25). -/
def configWord (s : State) : Word := (BitVec.ofNat 16 s.cfg.width).zeroExtend 32

/-- RECLEN: `12 + 2*W` (10_state.md R26). -/
def recLenWord (s : State) : Word := BitVec.ofNat 32 s.cfg.recLen

end Sys2Proof.Machine
end

