-- ==== Sys2Proof/Machine/Ops.lean ====
section
/-! DEFINITION. The shared operations: the byte-string primitives (00_scope.md R14), the arithmetic primitives (R16),
memory, and `raise Error(code)`, the block's one exception entry (60_exceptions.md R181). There is no return from an
error and nothing to restore (R191). -/

namespace Sys2Proof.Machine

/-- What a step or a meaning answers. -/
abbrev Result := Host.Outcome State Fault Refusal

/-- `LE(buf, 0, n)` of a byte string (00_scope.md R14). -/
def leValue : List Byte → Nat
  | [] => 0
  | b :: bs => b.toNat + 256 * leValue bs

/-- `BE(buf, 0, n)` of a byte string (00_scope.md R14). -/
def beValue : List Byte → Nat
  | [] => 0
  | b :: bs => b.toNat * 256 ^ bs.length + beValue bs

/-- `le_bytes(v, n)` (00_scope.md R14). -/
def leBytes (v : Nat) : Nat → List Byte
  | 0 => []
  | n + 1 => BitVec.ofNat 8 v :: leBytes (v / 256) n

/-- `be_bytes(v, n)` (00_scope.md R14). -/
def beBytes (v : Nat) : Nat → List Byte
  | 0 => []
  | n + 1 => BitVec.ofNat 8 (v / 256 ^ n) :: beBytes v n

/-- `buf[a .. a+n)`, a half-open byte range (00_scope.md R13). -/
def slice (bs : List Byte) (a n : Nat) : List Byte := (bs.drop a).take n

/-- `PadBigEndian(value, width)` (41_montgomery.md R121), used where `value < 256^width`. -/
def padBigEndian (v width : Nat) : List Byte := beBytes v width

/-- `ReverseBytes(buf)`, the whole-buffer reversal (41_montgomery.md R122). -/
def reverseBytes (bs : List Byte) : List Byte := bs.reverse

/-- One step `x <- x * (2 - t*x) mod 2^32` of the Newton-Hensel iteration (41_montgomery.md R133). -/
def inv32Step (t x : Word) : Word := x * (2 - t * x)

/-- `inv32(t)` (00_scope.md R16): for odd `t`, the unique `x < 2^32` with `t*x = 1 mod 2^32`. Four steps from `x = t`
reach it (41_montgomery.md R133); only the result is normative (log entry 11). -/
def inv32 (t : Nat) : Nat :=
  let w : Word := BitVec.ofNat 32 t
  (inv32Step w (inv32Step w (inv32Step w (inv32Step w w)))).toNat

/-- `(2^32 - inv32(t)) mod 2^32`, the Montgomery constant of a modulus whose low word is `t` (41_montgomery.md R130). -/
def montN0inv (t : Nat) : Nat := (2 ^ 32 - inv32 t) % 2 ^ 32

/-- `powmod(b, e, m)` (00_scope.md R16), called for `m > 0`. -/
def powmod (b e m : Nat) : Nat := b ^ e % m

/-- `2^(16*W) mod N`, the Montgomery residue (41_montgomery.md R136). -/
def montRr (width n : Nat) : Nat := powmod 2 (16 * width) n

/-- The record's bytes in field order (42_codec.md R150; 20_memory.md R68, R71). -/
def recordBytes (msw n0inv : Word) (modulus rr : List Byte) (exp : Word) : List Byte :=
  leBytes msw.toNat 4 ++ leBytes n0inv.toNat 4 ++ modulus ++ rr ++ leBytes exp.toNat 4

namespace Memory

/-- The byte at an offset, if it has been written since reset (70_reset_and_hazards.md R201). -/
def read? : Memory → Nat → Option Byte
  | [], _ => none
  | (k, b) :: m, a => if k = a then some b else read? m a

/-- The `n` bytes from offset `a` on, or the fault of the first one that was never written
(70_reset_and_hazards.md R201). -/
def readBytes (m : Memory) : Nat → Nat → Except Fault (List Byte)
  | _, 0 => .ok []
  | a, n + 1 =>
    match read? m a with
    | none => .error (.unwrittenByte a)
    | some b =>
      match readBytes m (a + 1) n with
      | .ok bs => .ok (b :: bs)
      | .error f => .error f

/-- The cells that hold `bs` from offset `a` on. -/
def cellsAt : Nat → List Byte → Memory
  | _, [] => []
  | a, b :: bs => (a, b) :: cellsAt (a + 1) bs

/-- Memory with `bs` written from offset `a` on: what lies below, the new cells, what lies above. -/
def write (m : Memory) (a : Nat) (bs : List Byte) : Memory :=
  m.filter (fun c => decide (c.1 < a)) ++ cellsAt a bs ++ m.filter (fun c => decide (a + bs.length ≤ c.1))

/-- Offsets strictly rising: the one canonical form of a memory. No value is what an unlisted offset reads as, so no
entry can equal it. -/
def wf : Memory → Bool
  | [] => true
  | [_] => true
  | c :: d :: m => decide (c.1 < d.1) && wf (d :: m)

end Memory

/-- `raise Error(code)`: STATUS.ERR becomes the code, nothing else changes (60_exceptions.md R181). -/
def raiseError (e : ErrCode) (s : State) : State := s.setErr (errCodeBits e)

/-- A command that ends in an error: the machine goes on (60_exceptions.md R190). -/
def raise (e : ErrCode) (s : State) : Result := .next (raiseError e s)

/-- A command that succeeds with the results in `s`: `x[STATUS] <- 0` (40_host_interface.md R104, R105). -/
def succeed (s : State) : Result := .next (s.setErr (errCodeBits .ok))

/-- Go on with the bytes a command reads; a never-written byte among them is a fault of the model
(70_reset_and_hazards.md R201). -/
def withBytes (r : Except Fault (List Byte)) (k : List Byte → Result) : Result :=
  match r with
  | .ok bs => k bs
  | .error f => .fault f

end Sys2Proof.Machine
end

