-- ==== Sys2Proof/Machine/Operands.lean ====
section
/-! DEFINITION. The operands: the four buffers (10_state.md R33 to R36), which the commands name implicitly
(30_encoding.md R82), and the window map that a bus transaction's offset goes through (20_memory.md R60, R61). -/

namespace Sys2Proof.Machine

/-- The four byte buffers (10_state.md R20). -/
inductive Buffer where
  | nBuf
  | rrBuf
  | recBuf
  | beBuf
  deriving DecidableEq, Repr

/-- A buffer's window offset (20_memory.md R61). -/
def bufBase : Buffer → Nat
  | .nBuf => 0x1000
  | .rrBuf => 0x2000
  | .recBuf => 0x3000
  | .beBuf => 0x4000

/-- A buffer's length in bytes (20_memory.md R61). -/
def bufSize (c : Config) : Buffer → Nat
  | .nBuf => c.width
  | .rrBuf => c.width
  | .recBuf => c.recLen
  | .beBuf => c.beCap

/-- The offset `off` lies in the buffer `b`. -/
abbrev inBuf (c : Config) (b : Buffer) (off : Nat) : Prop := bufBase b ≤ off ∧ off < bufBase b + bufSize c b

/-- `b[i .. i+n)` as it stands (00_scope.md R13, R15). -/
def loadBuf (s : State) (b : Buffer) (i n : Nat) : Except Fault (List Byte) := s.mem.readBytes (bufBase b + i) n

/-- `b[i .. i+bs.length) <- bs` (00_scope.md R13, R15). -/
def storeBuf (s : State) (b : Buffer) (i : Nat) (bs : List Byte) : State := s.setMem (s.mem.write (bufBase b + i) bs)

/-- What an offset of the window addresses (20_memory.md R61). -/
inductive Target where
  | cmd
  | status
  | config
  | recLen
  | n0inv
  | exp
  | msw
  | recValid
  | beLen
  /-- Byte `i` of buffer `b`. -/
  | buf (b : Buffer) (i : Nat)
  deriving DecidableEq, Repr

/-- The window map (20_memory.md R61, 40_host_interface.md R100); none is an unmapped offset. -/
def windowMap (c : Config) (off : Nat) : Option Target :=
  if off = 0x000 then some .cmd
  else if off = 0x004 then some .status
  else if off = 0x008 then some .config
  else if off = 0x00C then some .recLen
  else if off = 0x010 then some .n0inv
  else if off = 0x014 then some .exp
  else if off = 0x018 then some .msw
  else if off = 0x01C then some .recValid
  else if off = 0x020 then some .beLen
  else if inBuf c .nBuf off then some (.buf .nBuf (off - 0x1000))
  else if inBuf c .rrBuf off then some (.buf .rrBuf (off - 0x2000))
  else if inBuf c .recBuf off then some (.buf .recBuf (off - 0x3000))
  else if inBuf c .beBuf off then some (.buf .beBuf (off - 0x4000))
  else none

/-- The window offset of a host address, if the address lies in `[BASE, BASE + 0x5000)` (20_memory.md R60, R65). -/
def windowOffset (c : Config) (addr : Nat) : Option Nat :=
  if c.base ≤ addr ∧ addr < c.base + 0x5000 then some (addr - c.base) else none

end Sys2Proof.Machine
end

