-- ==== Sys2Proof/Machine/Codec.lean ====
section
/-! DEFINITION. The codec commands ENCODE and DECODE (42_codec.md). -/

namespace Sys2Proof.Machine

/-- ENCODE (42_codec.md R151, R152): serialize the five fields as they stand; it cannot fail. -/
def execEncode (s : State) : Result :=
  withBytes (loadBuf s .nBuf 0 s.cfg.width) fun n =>
    withBytes (loadBuf s .rrBuf 0 s.cfg.width) fun rr =>
      succeed
        ((storeBuf s .recBuf 0 (recordBytes s.msw s.n0inv n rr s.exp)).setRecValid (BitVec.ofNat 32 s.cfg.recLen))

/-- DECODE (42_codec.md R153 to R155): TruncatedInput when REC_VALID is below RECLEN, with no byte of REC_BUF read;
else the five fields, unchecked. -/
def execDecode (s : State) : Result :=
  if s.recValid.toNat < s.cfg.recLen then raise .truncatedInput s
  else
    withBytes (loadBuf s .recBuf 0 s.cfg.recLen) fun r =>
      succeed
        ((storeBuf
              (storeBuf
                ((s.setMsw (BitVec.ofNat 32 (leValue (slice r 0 4)))).setN0inv
                  (BitVec.ofNat 32 (leValue (slice r 4 4))))
                .nBuf 0 (slice r 8 s.cfg.width))
              .rrBuf 0 (slice r (8 + s.cfg.width) s.cfg.width)).setExp
          (BitVec.ofNat 32 (leValue (slice r (8 + 2 * s.cfg.width) 4))))

end Sys2Proof.Machine
end

