-- ==== Sys2Proof/Machine/Convert.lean ====
section
/-! DEFINITION. CONVERT, both Montgomery parameters and the record in one command (43_convert.md). -/

namespace Sys2Proof.Machine

/-- CONVERT (43_convert.md R170, R172): InvalidModulus when the low word of the modulus is even (decided before the
rest of N_BUF is read, log entry 10); else N0INV, RR_BUF, MSW, REC_BUF and REC_VALID from the starting state. -/
def execConvert (s : State) : Result :=
  withBytes (loadBuf s .nBuf 0 4) fun low =>
    if leValue low % 2 = 0 then raise .invalidModulus s
    else
      withBytes (loadBuf s .nBuf 0 s.cfg.width) fun n =>
        let a : Word := BitVec.ofNat 32 (montN0inv (leValue low))
        let r := leBytes (montRr s.cfg.width (leValue n)) s.cfg.width
        let words : Word := BitVec.ofNat 32 s.cfg.mswVal
        succeed
          ((storeBuf ((storeBuf (s.setN0inv a) .rrBuf 0 r).setMsw words) .recBuf 0
                (recordBytes words a n r s.exp)).setRecValid
            (BitVec.ofNat 32 s.cfg.recLen))

end Sys2Proof.Machine
end

