-- ==== Sys2Proof/Machine/Montgomery.lean ====
section
/-! DEFINITION. The Montgomery parameter commands LOAD_N, N0INV and RR (41_montgomery.md). -/

namespace Sys2Proof.Machine

/-- LOAD_N (41_montgomery.md R124, R125): BadLength, then SizeMismatch (`natlen(v) > W`, that is `256^W <= v`), else
N_BUF holds the value little-endian. BE_BUF is read only when BE_LEN is legal. -/
def execLoadN (s : State) : Result :=
  if s.cfg.beCap < s.beLen.toNat then raise .badLength s
  else
    withBytes (loadBuf s .beBuf 0 s.beLen.toNat) fun be =>
      if 256 ^ s.cfg.width ≤ beValue be then raise .sizeMismatch s
      else succeed (storeBuf s .nBuf 0 (reverseBytes (padBigEndian (beValue be) s.cfg.width)))

/-- N0INV (41_montgomery.md R130, R132): InvalidModulus when the low word of the modulus is even. -/
def execN0inv (s : State) : Result :=
  withBytes (loadBuf s .nBuf 0 4) fun low =>
    if leValue low % 2 = 0 then raise .invalidModulus s
    else succeed (s.setN0inv (BitVec.ofNat 32 (montN0inv (leValue low))))

/-- RR (41_montgomery.md R136, R139): InvalidModulus only when the modulus is 0. -/
def execRr (s : State) : Result :=
  withBytes (loadBuf s .nBuf 0 s.cfg.width) fun n =>
    if leValue n = 0 then raise .invalidModulus s
    else succeed (storeBuf s .rrBuf 0 (leBytes (montRr s.cfg.width (leValue n)) s.cfg.width))

end Sys2Proof.Machine
end

