-- ==== Sys2Proof/Machine/Dispatch.lean ====
section
/-! DEFINITION. One arm per command: the rule IssueCommand runs (40_host_interface.md R103). -/

namespace Sys2Proof.Machine

def exec (i : Instr) (s : State) : Host.Outcome State Fault Refusal :=
  match i with
  | .loadN => Sys2Proof.Machine.execLoadN s
  | .n0inv => Sys2Proof.Machine.execN0inv s
  | .rr => Sys2Proof.Machine.execRr s
  | .encode => Sys2Proof.Machine.execEncode s
  | .decode => Sys2Proof.Machine.execDecode s
  | .convert => Sys2Proof.Machine.execConvert s

end Sys2Proof.Machine
end

