-- ==== Sys2Proof/Machine/Bus.lean ====
section
/-! DEFINITION. The two bus transactions and command issue (40_host_interface.md R100 to R108). -/

namespace Sys2Proof.Machine

/-- The access is one the block takes: 32 bits, every byte enable, an offset that is a multiple of 4
(20_memory.md R63). -/
abbrev Access.takes (a : Access) : Prop := a.bytes = 4 ∧ a.lanes = 0xF ∧ a.off % 4 = 0

/-- What a mapped offset reads as (40_host_interface.md R100; a buffer word by 20_memory.md R69). -/
def readTarget (s : State) : Target → Except Fault Word
  | .cmd => .ok 0
  | .status => .ok (statusWord s)
  | .config => .ok (configWord s)
  | .recLen => .ok (recLenWord s)
  | .n0inv => .ok s.n0inv
  | .exp => .ok s.exp
  | .msw => .ok s.msw
  | .recValid => .ok s.recValid
  | .beLen => .ok s.beLen
  | .buf b i =>
    match loadBuf s b i 4 with
    | .ok bs => .ok (BitVec.ofNat 32 (leValue bs))
    | .error f => .error f

/-- `MemRead(off, n)` (40_host_interface.md R100). -/
def memRead (a : Access) (s : State) : Except Fault Word :=
  if a.takes then
    match windowMap s.cfg a.off with
    | some t => readTarget s t
    | none => .error (.busError a.off)
  else .error (.busError a.off)

/-- `IssueCommand(v)` (40_host_interface.md R103): an illegal word raises IllegalCommand (60_exceptions.md R184). -/
def issueCommand (v : Word) (s : State) : Result :=
  match decode v with
  | .error _ => raise .illegalCommand s
  | .ok i => exec i s

/-- What a write of `v` to a mapped offset does (40_host_interface.md R101; a buffer word by 20_memory.md R69). -/
def writeTarget (v : Word) (s : State) : Target → Result
  | .cmd => issueCommand v s
  | .status => .next s
  | .config => .next s
  | .recLen => .next s
  | .n0inv => .next (s.setN0inv v)
  | .exp => .next (s.setExp v)
  | .msw => .next (s.setMsw v)
  | .recValid => .next (s.setRecValid v)
  | .beLen => .next (s.setBeLen v)
  | .buf b i => .next (storeBuf s b i (leBytes v.toNat 4))

/-- `MemWrite(off, n, v)` (40_host_interface.md R101). -/
def memWrite (a : Access) (v : Word) (s : State) : Result :=
  if a.takes then
    match windowMap s.cfg a.off with
    | some t => writeTarget v s t
    | none => .fault (.busError a.off)
  else .fault (.busError a.off)

/-- How a transaction ends (40_host_interface.md R102, with the model's own two ways to stop). -/
inductive Response where
  /-- A read's data. -/
  | data (v : Word)
  /-- A write's completion, of a failed command too. -/
  | done
  /-- A bus error (60_exceptions.md R187) or a never-written byte read (70_reset_and_hazards.md R201). -/
  | failed (f : Fault)
  /-- A command without a meaning. -/
  | refused (r : Refusal)
  deriving DecidableEq, Repr

/-- The block's step over whole transactions (40_host_interface.md R108). A failed transaction leaves the state as it
was (R102, 60_exceptions.md R187). -/
def transact (t : Transaction) (s : State) : State × Response :=
  match t with
  | .read a =>
    match memRead a s with
    | .ok v => (s, .data v)
    | .error f => (s, .failed f)
  | .write a v =>
    match memWrite a v s with
    | .next s' => (s', .done)
    | .fault f => (s, .failed f)
    | .refused r => (s, .refused r)

end Sys2Proof.Machine
end

