-- ==== Sys2Proof/Machine/HostPort.lean ====
section
/-! DEFINITION. The host agent: what one line of its program does (30_encoding.md R86), the notation's abbreviations
(R87), and the reset event (70_reset_and_hazards.md R200). -/

namespace Sys2Proof.Machine

/-- The host goes on to its next line. -/
def advance (s : State) : State := s.setHost { s.host with line := s.host.line + 1 }

/-- The host goes to line `n`. -/
def goto (n : Nat) (s : State) : State := s.setHost { s.host with line := n }

/-- Host variable `hK` becomes `v` (30_encoding.md R86). -/
def setVar (k : Fin 8) (v : Word) (s : State) : State := s.setHost { s.host with vars := s.host.vars.set k v }

/-- Host variable `hK`. -/
def getVar (k : Fin 8) (s : State) : Word := s.host.vars[k]

/-- The host puts a transaction on the bus at `BASE + OFF`. The block sees it only inside its window; outside, it is
the platform's (20_memory.md R65, log entry 5). -/
def onBus (off : Nat) (s : State) (k : Nat → Result) : Result :=
  match windowOffset s.cfg (s.cfg.base + off) with
  | some o => k o
  | none => .refused (.outsideWindow off)

/-- A bus write by the host. A bus error is a fault of the host's step (60_exceptions.md R187, log entry 4). -/
def hostWrite (a : Access) (v : Word) (s : State) : Result :=
  onBus a.off s fun o =>
    match transact (.write { a with off := o } v) s with
    | (s', .done) => .next (advance s')
    | (s', .data _) => .next (advance s')
    | (_, .failed f) => .fault f
    | (_, .refused r) => .refused r

/-- A bus read by the host into `hK`. -/
def hostRead (a : Access) (k : Fin 8) (s : State) : Result :=
  onBus a.off s fun o =>
    match transact (.read { a with off := o }) s with
    | (s', .data v) => .next (advance (setVar k v s'))
    | (s', .done) => .next (advance s')
    | (_, .failed f) => .fault f
    | (_, .refused r) => .refused r

/-- A host branch to label `l`, taken when `c` holds. -/
def hostBranch (c : Bool) (l : Nat) (s : State) : Result :=
  if c then
    match findLabel s.host.prog l with
    | some n => .next (goto n s)
    | none => .refused (.undefinedLabel l)
  else .next (advance s)

/-- One line of the host program (30_encoding.md R86). At `halt` the host stays where it is (log entry 8). -/
def runLine (x : HostLine) (s : State) : Result :=
  match x with
  | .wr a v => hostWrite a v s
  | .rd a k => hostRead a k s
  | .beq k imm l => hostBranch (getVar k s == imm) l s
  | .bne k imm l => hostBranch (getVar k s != imm) l s
  | .label _ => .next (advance s)
  | .halt => .next s

/-- The host's next line, if its program has one there. A host without a line issues no transaction, and the block
never steps on its own (40_host_interface.md R108, log entry 8). -/
def hostStep (s : State) : Result :=
  match s.host.prog[s.host.line]? with
  | some x => runLine x s
  | none => .next s

/-- The reset event (70_reset_and_hazards.md R200 to R202): the block's state after it depends on nothing that came
before but the build. The host is outside the block and stays as it is. -/
def blockReset (s : State) : State :=
  { State.resetOf s.cfg with resetIn := s.resetIn, host := s.host }

/-- `wr OFF, VAL` (30_encoding.md R86). -/
def wr (off : Nat) (v : Word) : HostLine := .wr (Access.word32 off) v

/-- `rd OFF -> hK` (30_encoding.md R86). -/
def rd (off : Nat) (k : Fin 8) : HostLine := .rd (Access.word32 off) k

/-- `cmd NAME` (30_encoding.md R87). -/
def cmd (i : Instr) : HostLine := wr 0x000 (encode i)

/-- `wbytes OFF, b0 b1 ... b(4k-1)` (30_encoding.md R87); none when the bytes are not whole words. -/
def wbytes : Nat → List Byte → Option (List HostLine)
  | _, [] => some []
  | off, b0 :: b1 :: b2 :: b3 :: bs =>
    (wbytes (off + 4) bs).map (wr off (BitVec.ofNat 32 (leValue [b0, b1, b2, b3])) :: ·)
  | _, _ => none

/-- `m` reads of consecutive words into `hK, h(K+1), ...`; none past h7. -/
def rwords (off : Nat) : Nat → Nat → Option (List HostLine)
  | _, 0 => some []
  | k, m + 1 => if h : k < 8 then (rwords (off + 4) (k + 1) m).map (rd off ⟨k, h⟩ :: ·) else none

/-- `rbytes OFF, n -> hK..` (30_encoding.md R87); none when `n` is not a multiple of 4. -/
def rbytes (off n k : Nat) : Option (List HostLine) := if n % 4 = 0 then rwords off k (n / 4) else none

/-- The host program with line `n` replaced by `x` (filled up with `halt` where it is shorter). -/
def placeLine (p : List HostLine) (n : Nat) (x : HostLine) : List HostLine :=
  p.take n ++ List.replicate (n - p.length) .halt ++ x :: p.drop (n + 1)

end Sys2Proof.Machine
end

