-- ==== Sys2Proof/Machine/Step.lean ====
section
/-! DEFINITION. One step of the machine (40_host_interface.md R108): the reset input first, then the host's next
line. -/

namespace Sys2Proof.Machine

/-- One step. An illegal width is refused (93_implementation_defined.md U11). While the reset input is asserted the
block is in its reset state and takes no transaction (70_reset_and_hazards.md R200, U6). -/
def step (s : State) : Host.Outcome State Fault Refusal :=
  if s.cfg.Legal then
    match s.resetIn with
    | true :: rest => .next ((blockReset s).setResetIn rest)
    | false :: rest => hostStep (s.setResetIn rest)
    | [] => hostStep s
  else .refused (.illegalWidth s.cfg.width)

/-- The command word `w` made the data of the CMD write that the host performs next: its line is replaced, and the
reset input is released (log entry 7). -/
def State.withFetchWord (s : State) (nbits w : Nat) : State :=
  (s.setResetIn []).setHost
    { s.host with
      prog := placeLine s.host.prog s.host.line (wr 0x000 (BitVec.ofNat 32 (w % 2 ^ nbits))) }

end Sys2Proof.Machine
end

