-- ==== Sys2Proof/Safety.lean ====
section
/-! DEFINITION. The terms claims use: the invariant of the machine, what each command reads and writes
(10_state.md R37), when a command's operands are specified (70_reset_and_hazards.md R204), and a safe run. -/

namespace Sys2Proof.Machine

/-- The offset is in the window map (20_memory.md R61): a scalar register's word or a byte of a buffer. -/
abbrev Mapped (c : Config) (off : Nat) : Prop :=
  (off % 4 = 0 ∧ off ≤ 0x020) ∨ inBuf c .nBuf off ∨ inBuf c .rrBuf off ∨ inBuf c .recBuf off ∨ inBuf c .beBuf off

/-- What holds of every machine that started from reset: a legal width (00_scope.md R9), a memory in canonical form
that holds bytes of the four buffers alone (10_state.md R20), and one of the six outcome codes in STATUS.ERR
(60_exceptions.md R180). -/
structure State.Inv (s : State) : Prop where
  legal : s.cfg.Legal
  memWf : Memory.wf s.mem = true
  memInBufs : ∀ c ∈ s.mem, ∃ b, inBuf s.cfg b c.1
  errLegal : s.err.toNat ≤ 5

/-- Buffers are written in whole bus words (20_memory.md R62, R78): the bytes of one word are all written or all
unwritten. -/
def State.WholeWords (s : State) : Prop :=
  ∀ a, (s.mem.read? a).isSome = (s.mem.read? (a - a % 4)).isSome

/-- All `n` bytes of buffer `b` from index `i` on have been written since reset. -/
def Written (s : State) (b : Buffer) (i n : Nat) : Prop :=
  ∀ j, j < n → (s.mem.read? (bufBase b + i + j)).isSome

/-- One item of the block's state (10_state.md R37). -/
inductive Item where
  | err
  | n0inv
  | exp
  | msw
  | recValid
  | beLen
  /-- The buffer byte at a window offset. -/
  | byte (off : Nat)
  deriving DecidableEq, Repr

/-- Two states hold the same in an item. -/
def sameItem (s t : State) : Item → Prop
  | .err => s.err = t.err
  | .n0inv => s.n0inv = t.n0inv
  | .exp => s.exp = t.exp
  | .msw => s.msw = t.msw
  | .recValid => s.recValid = t.recValid
  | .beLen => s.beLen = t.beLen
  | .byte off => s.mem.read? off = t.mem.read? off

/-- The items a command reads in state `s` (10_state.md R37, with the operands of 41_montgomery.md R124, R130, R136,
42_codec.md R151, R153 and 43_convert.md R170). -/
def readsItem (s : State) : Instr → Item → Prop
  | .loadN, .beLen => True
  | .loadN, .byte off =>
    s.beLen.toNat ≤ s.cfg.beCap ∧ bufBase .beBuf ≤ off ∧ off < bufBase .beBuf + s.beLen.toNat
  | .n0inv, .byte off => bufBase .nBuf ≤ off ∧ off < bufBase .nBuf + 4
  | .rr, .byte off => inBuf s.cfg .nBuf off
  | .encode, .msw => True
  | .encode, .n0inv => True
  | .encode, .exp => True
  | .encode, .byte off => inBuf s.cfg .nBuf off ∨ inBuf s.cfg .rrBuf off
  | .decode, .recValid => True
  | .decode, .byte off => s.cfg.recLen ≤ s.recValid.toNat ∧ inBuf s.cfg .recBuf off
  | .convert, .exp => True
  | .convert, .byte off => inBuf s.cfg .nBuf off
  | _, _ => False

/-- The items a command writes when it succeeds (10_state.md R37). -/
def writesItem (c : Config) : Instr → Item → Prop
  | _, .err => True
  | .loadN, .byte off => inBuf c .nBuf off
  | .n0inv, .n0inv => True
  | .rr, .byte off => inBuf c .rrBuf off
  | .encode, .recValid => True
  | .encode, .byte off => inBuf c .recBuf off
  | .decode, .msw => True
  | .decode, .n0inv => True
  | .decode, .exp => True
  | .decode, .byte off => inBuf c .nBuf off ∨ inBuf c .rrBuf off
  | .convert, .n0inv => True
  | .convert, .msw => True
  | .convert, .recValid => True
  | .convert, .byte off => inBuf c .rrBuf off ∨ inBuf c .recBuf off
  | _, _ => False

/-- What the block does not touch in any transaction: the build, the host and the reset input. -/
def sameOutside (s t : State) : Prop := t.cfg = s.cfg ∧ t.host = s.host ∧ t.resetIn = s.resetIn

/-- The state at a window address `b`, everything else as in `s` (20_memory.md R72). -/
def withBase (b : Nat) (s : State) : State := { s with cfg := { s.cfg with base := b } }

/-- A run of `n` steps that stops nowhere: no bus error, no unspecified byte consumed, no access outside the
window. -/
def SafeRun (n : Nat) (s : State) : Prop := ∃ t, Sys2Proof.core.run n s = .next t

end Sys2Proof.Machine
end

