-- ==== Sys2Proof/Certificates/Slice0/Obligations.lean ====
section
/-! DEFINITION. The statements about the block, from the numbered rules of the spec. -/

open Sys2Proof Sys2Proof.Machine

/-! Reset (70_reset_and_hazards.md). -/

/-- 70_reset_and_hazards.md section 1: a step under an asserted reset leaves the table's state: STATUS and the five scalar
registers 0, the build's constants as they were, no buffer byte specified. The same values hold at power-up, in every
build, the model's start state among them. That the host stands where it stood, and that a step reads one level of the
reset input, is the model's choice (log entries 6 and 9): the block accepts no transaction during reset, and what the host
port does with one is the platform's. -/
def Obligations.ResetLeavesTheTabledState : Prop :=
  (∀ (s : State) (rest : List Bool), s.cfg.Legal → s.resetIn = true :: rest →
    ∃ t, step s = .next t ∧ t.err = 0 ∧ t.n0inv = 0 ∧ t.exp = 0 ∧ t.msw = 0 ∧ t.recValid = 0 ∧ t.beLen = 0 ∧
      t.cfg = s.cfg ∧ (∀ a, t.mem.read? a = none) ∧ t.host = s.host ∧ t.resetIn = rest) ∧
  (∀ c : Config, let t := State.resetOf c
    t.err = 0 ∧ t.n0inv = 0 ∧ t.exp = 0 ∧ t.msw = 0 ∧ t.recValid = 0 ∧ t.beLen = 0 ∧ t.cfg = c ∧
      ∀ a, t.mem.read? a = none) ∧
  ∃ c : Config, c.Legal ∧ State.reset = State.resetOf c

/-- 70_reset_and_hazards.md section 1: the state after a reset depends on nothing the block held before it, so no
program carries data across a reset. -/
def Obligations.ResetForgetsWhatCameBefore : Prop :=
  ∀ (s₁ s₂ : State) (rest : List Bool), s₁.cfg = s₂.cfg → s₁.host = s₂.host → s₁.resetIn = true :: rest →
    s₂.resetIn = true :: rest → step s₁ = step s₂

/-! Bus transactions (20_memory.md, 40_host_interface.md). -/

/-- 40_host_interface.md section 1, every line of MemRead: a read never changes the state, a register's offset gives the
register, a buffer word gives the little-endian value of its four bytes, and every other read is a bus error. That a
never-written byte fails the read is the spec's model treatment of unspecified bytes (70_reset_and_hazards.md section 1),
the model's log entry 3. -/
def Obligations.ReadGivesWhatTheWindowMapSays : Prop :=
  ∀ s : State, s.cfg.Legal →
    (∀ a : Access, ¬ (a.bytes = 4 ∧ a.lanes = 0xF ∧ a.off % 4 = 0) →
      transact (.read a) s = (s, .failed (.busError a.off))) ∧
    transact (.read (Access.word32 0x000)) s = (s, .data 0) ∧
    transact (.read (Access.word32 0x004)) s = (s, .data (s.err.zeroExtend 32)) ∧
    transact (.read (Access.word32 0x008)) s = (s, .data (BitVec.ofNat 32 s.cfg.width)) ∧
    transact (.read (Access.word32 0x00C)) s = (s, .data (BitVec.ofNat 32 (12 + 2 * s.cfg.width))) ∧
    transact (.read (Access.word32 0x010)) s = (s, .data s.n0inv) ∧
    transact (.read (Access.word32 0x014)) s = (s, .data s.exp) ∧
    transact (.read (Access.word32 0x018)) s = (s, .data s.msw) ∧
    transact (.read (Access.word32 0x01C)) s = (s, .data s.recValid) ∧
    transact (.read (Access.word32 0x020)) s = (s, .data s.beLen) ∧
    (∀ (b : Buffer) (i : Nat), i % 4 = 0 → i < bufSize s.cfg b →
      (∀ bs, loadBuf s b i 4 = .ok bs →
        ∃ v : Word, transact (.read (Access.word32 (bufBase b + i))) s = (s, .data v) ∧ v.toNat = leValue bs) ∧
      ∀ f, loadBuf s b i 4 = .error f →
        transact (.read (Access.word32 (bufBase b + i))) s = (s, .failed f)) ∧
    ∀ off, off % 4 = 0 → ¬ Mapped s.cfg off →
      transact (.read (Access.word32 off)) s = (s, .failed (.busError off))

/-- 40_host_interface.md section 1, every line of MemWrite: a CMD write issues its command, the read-only registers
ignore the write, a register takes the word, a buffer word takes its four little-endian bytes and no other byte changes,
and every other write is a bus error that changes nothing. That a CMD write fails where its command reads a never-written
byte is the model's log entry 3 (70_reset_and_hazards.md section 1). -/
def Obligations.WriteStoresWhatTheWindowMapSays : Prop :=
  ∀ (s : State) (v : Word), s.cfg.Legal →
    (∀ a : Access, ¬ (a.bytes = 4 ∧ a.lanes = 0xF ∧ a.off % 4 = 0) →
      transact (.write a v) s = (s, .failed (.busError a.off))) ∧
    (∀ e, decode v = .error e → transact (.write (Access.word32 0x000) v) s = (s.setErr 4, .done)) ∧
    (∀ i, decode v = .ok i →
      (∀ t, exec i s = .next t → transact (.write (Access.word32 0x000) v) s = (t, .done)) ∧
      ∀ f, exec i s = .fault f → transact (.write (Access.word32 0x000) v) s = (s, .failed f)) ∧
    transact (.write (Access.word32 0x004) v) s = (s, .done) ∧
    transact (.write (Access.word32 0x008) v) s = (s, .done) ∧
    transact (.write (Access.word32 0x00C) v) s = (s, .done) ∧
    transact (.write (Access.word32 0x010) v) s = (s.setN0inv v, .done) ∧
    transact (.write (Access.word32 0x014) v) s = (s.setExp v, .done) ∧
    transact (.write (Access.word32 0x018) v) s = (s.setMsw v, .done) ∧
    transact (.write (Access.word32 0x01C) v) s = (s.setRecValid v, .done) ∧
    transact (.write (Access.word32 0x020) v) s = (s.setBeLen v, .done) ∧
    (∀ (b : Buffer) (i : Nat), i % 4 = 0 → i < bufSize s.cfg b →
      ∃ t bs, transact (.write (Access.word32 (bufBase b + i)) v) s = (t, .done) ∧ loadBuf t b i 4 = .ok bs ∧
        leValue bs = v.toNat ∧ t = s.setMem t.mem ∧
        ∀ a, ¬ (bufBase b + i ≤ a ∧ a < bufBase b + i + 4) → t.mem.read? a = s.mem.read? a) ∧
    ∀ off, off % 4 = 0 → ¬ Mapped s.cfg off →
      transact (.write (Access.word32 off) v) s = (s, .failed (.busError off))

/-- 20_memory.md sections 2, 3 and 5: a word written to a read-write register or to a buffer word is read back, and
every other word of the window reads as it did before, a never-written one and an unmapped one included. -/
def Obligations.WrittenWordReadsBackAndOthersStay : Prop :=
  ∀ (s : State) (v : Word) (off : Nat), s.cfg.Legal → off % 4 = 0 → 0x010 ≤ off → Mapped s.cfg off →
    ∃ t, transact (.write (Access.word32 off) v) s = (t, .done) ∧
      transact (.read (Access.word32 off)) t = (t, .data v) ∧
      ∀ off', off' % 4 = 0 → off' ≠ off →
        (transact (.read (Access.word32 off')) t).2 = (transact (.read (Access.word32 off')) s).2

/-- 60_exceptions.md R187 with 20_memory.md R63: inside the window a transaction ends in a bus error exactly when its
width is not 32 bits, a byte enable is missing, its offset is misaligned or its offset is unmapped. It then writes no
state (a CMD write runs no command), and it is a fault of the host's step. -/
def Obligations.BusErrorsAreExactAndChangeNothing : Prop :=
  ∀ (s : State) (a : Access) (v : Word) (k : Fin 8), s.cfg.Legal → a.off < 0x5000 →
    (∀ x, x = Transaction.read a ∨ x = Transaction.write a v →
      ((∃ o, (transact x s).2 = .failed (.busError o)) ↔
        ¬ (a.bytes = 4 ∧ a.lanes = 0xF ∧ a.off % 4 = 0) ∨ ¬ Mapped s.cfg a.off) ∧
      ∀ o, (transact x s).2 = .failed (.busError o) → o = a.off ∧ (transact x s).1 = s) ∧
    (¬ (a.bytes = 4 ∧ a.lanes = 0xF ∧ a.off % 4 = 0) ∨ ¬ Mapped s.cfg a.off → s.resetIn.head? ≠ some true →
      (s.host.prog[s.host.line]? = some (.wr a v) ∨ s.host.prog[s.host.line]? = some (.rd a k)) →
        step s = .fault (.busError a.off))

/-! The step. -/

/-- 40_host_interface.md section 2 and 92_eei_decisions.md D9: when the host's next line writes a command word to CMD
and reset is released, the step is the command's meaning on the state with the reset input read (which never refuses),
and the host then goes to its next line. -/
def Obligations.StepRunsTheDecodedCommand : Prop :=
  ∀ (s : State) (w : Word), s.cfg.Legal → s.resetIn.head? ≠ some true →
    s.host.prog[s.host.line]? = some (wr 0x000 w) →
    let s₀ := s.setResetIn s.resetIn.tail
    (∀ i, decode w = .ok i →
      (∀ t, exec i s₀ = .next t →
        step s = .next (t.setHost { t.host with line := t.host.line + 1 }) ∧ t.host = s.host) ∧
      (∀ f, exec i s₀ = .fault f → step s = .fault f) ∧
      ∀ r, exec i s₀ ≠ .refused r) ∧
    ∀ e, decode w = .error e →
      step s = .next ((s₀.setErr 4).setHost { s.host with line := s.host.line + 1 })

/-- The model's own way to load a program (log entry 7): the command word placed by withFetchWord is the one the very
next step decodes and runs. -/
def Obligations.PlacedCommandRunsNext : Prop :=
  ∀ (s : State) (i : Instr), s.cfg.Legal →
    let p := s.withFetchWord 32 (encode i).toNat
    (∀ t, exec i p = .next t → step p = .next (t.setHost { p.host with line := s.host.line + 1 })) ∧
    ∀ f, exec i p = .fault f → step p = .fault f

/-- 30_encoding.md section 3 (the model's reading of it, log entries 6, 8 and 18): the lines of the host notation, at a
released reset input, on the state with that input read. -/
def Obligations.HostLinesFollowTheNotation : Prop :=
  ∀ (s : State) (x : HostLine), s.cfg.Legal → s.resetIn.head? ≠ some true → s.host.prog[s.host.line]? = some x →
    let s₀ := s.setResetIn s.resetIn.tail
    (∀ off v t, x = wr off v → off < 0x5000 → transact (.write (Access.word32 off) v) s₀ = (t, .done) →
      step s = .next (t.setHost { t.host with line := t.host.line + 1 })) ∧
    (∀ off k v, x = rd off k → off < 0x5000 → transact (.read (Access.word32 off)) s₀ = (s₀, .data v) →
      step s = .next (s₀.setHost { s.host with vars := s.host.vars.set k v, line := s.host.line + 1 })) ∧
    (∀ k imm l n, x = .beq k imm l → findLabel s.host.prog l = some n →
      s.host.prog[n]? = some (.label l) ∧
      step s = .next (s₀.setHost { s.host with line := if s.host.vars[k] = imm then n else s.host.line + 1 })) ∧
    (∀ k imm l n, x = .bne k imm l → findLabel s.host.prog l = some n →
      s.host.prog[n]? = some (.label l) ∧
      step s = .next (s₀.setHost { s.host with line := if s.host.vars[k] = imm then s.host.line + 1 else n })) ∧
    (∀ l, x = .label l → step s = .next (s₀.setHost { s.host with line := s.host.line + 1 })) ∧
    (x = .halt → step s = .next s₀)

/-- The model's two refusals a legal program can meet (log entries 1, 5): an access outside the window, which the block
does not see, and a build whose width is not legal. -/
def Obligations.StepRefusesWhatIsNotTheBlocks : Prop :=
  (∀ (s : State) (a : Access) (v : Word) (k : Fin 8), s.cfg.Legal → s.resetIn.head? ≠ some true → 0x5000 ≤ a.off →
    (s.host.prog[s.host.line]? = some (.wr a v) ∨ s.host.prog[s.host.line]? = some (.rd a k)) →
      step s = .refused (.outsideWindow a.off)) ∧
  ∀ s : State, ¬ (s.cfg.width % 4 = 0 ∧ 4 ≤ s.cfg.width ∧ s.cfg.width ≤ 2040) →
    step s = .refused (.illegalWidth s.cfg.width)

/-! Encoding (30_encoding.md). -/

/-- 30_encoding.md R84 and 60_exceptions.md R184: every word outside the opcode map, written to CMD, raises
IllegalCommand: STATUS.ERR becomes 4, nothing else changes, and the write is done. The words outside the map are 0 and
everything from 7 on: a nonzero reserved field makes the word at least 256. -/
def Obligations.IllegalWordsOnlyRaiseErrorFour : Prop :=
  ∀ (s : State) (v : Word),
    (v.toNat / 256 ≠ 0 ∨ v.toNat % 256 = 0 ∨ 7 ≤ v.toNat % 256) →
      (∃ e, decode v = .error e) ∧ transact (.write (Access.word32 0x000) v) s = (s.setErr 4, .done)

/-- 30_encoding.md R83: over all 2^32 words, a word decodes to a command exactly when it is that command's word, and the
words are the table's. -/
def Obligations.DecodeAndEncodeAgree : Prop :=
  (∀ (v : Word) (i : Instr), decode v = .ok i ↔ v = encode i) ∧
  (∀ (w : Nat) (i : Instr), w < 2 ^ 32 → (decodeTableWord 32 w = some i ↔ w = (encode i).toNat)) ∧
  (encode .loadN = 0x00000001 ∧ encode .n0inv = 0x00000002 ∧ encode .rr = 0x00000003 ∧
    encode .encode = 0x00000004 ∧ encode .decode = 0x00000005 ∧ encode .convert = 0x00000006)

/-- Words written out from 30_encoding.md section 2 decode as they should. -/
def Obligations.TableWordsDecode : Prop :=
  decode 0b00000000000000000000000000000001#32 = .ok .loadN ∧
  decode 0b00000000000000000000000000000100#32 = .ok .encode ∧
  decode 0b00000000000000000000000000000110#32 = .ok .convert ∧
  decode 0b00000000000000000000000000000000#32 = .error .unknownOpcode ∧
  decode 0b00000000000000000000000100000001#32 = .error .reservedBits

/-! The byte helpers (41_montgomery.md R120 to R123). -/

/-- 41_montgomery.md section 1 and 00_scope.md section 4: for a value of at most `w` bytes, PadBigEndian has length `w`
and the value; ReverseBytes of it is the little-endian layout, whose byte `i` is bits `8i+7..8i` of the value. -/
def Obligations.PadAndReverseGiveTheRecordLayout : Prop :=
  ∀ v w : Nat, v < 2 ^ (8 * w) →
    (padBigEndian v w).length = w ∧ beValue (padBigEndian v w) = v ∧
      leValue (reverseBytes (padBigEndian v w)) = v ∧
      ∀ i, i < w → (reverseBytes (padBigEndian v w))[i]? = some (BitVec.ofNat 8 (v >>> (8 * i)))

/-! The commands' results and frames. -/

/-- 41_montgomery.md R124: LOAD_N, with BadLength before SizeMismatch, its result and its frame. A modulus shorter than
`W` bytes and leading zero bytes are covered: the check is on the value. -/
def Obligations.LoadNFollowsItsRule : Prop :=
  ∀ s : State,
    (2 * s.cfg.width < s.beLen.toNat → exec .loadN s = .next (s.setErr 5)) ∧
    ∀ be, s.beLen.toNat ≤ 2 * s.cfg.width → loadBuf s .beBuf 0 s.beLen.toNat = .ok be →
      (2 ^ (8 * s.cfg.width) ≤ beValue be → exec .loadN s = .next (s.setErr 2)) ∧
      (beValue be < 2 ^ (8 * s.cfg.width) →
        ∃ t n, exec .loadN s = .next t ∧ loadBuf t .nBuf 0 s.cfg.width = .ok n ∧ leValue n = beValue be ∧
          t.err = 0 ∧ t.n0inv = s.n0inv ∧ t.exp = s.exp ∧ t.msw = s.msw ∧ t.recValid = s.recValid ∧
          t.beLen = s.beLen ∧ sameOutside s t ∧
          ∀ a, ¬ inBuf s.cfg .nBuf a → t.mem.read? a = s.mem.read? a)

/-- 41_montgomery.md R130 and R131: N0INV reads the four low bytes of N_BUF alone. An even modulus is InvalidModulus.
Otherwise the register becomes the unique word whose product with `N mod 2^32` is `2^32 - 1`, an odd one, and nothing
else changes but ERR = 0. -/
def Obligations.N0invFollowsItsRule : Prop :=
  ∀ (s : State) (low : List Byte), loadBuf s .nBuf 0 4 = .ok low →
    (∀ n, s.cfg.Legal → loadBuf s .nBuf 0 s.cfg.width = .ok n → leValue n % 2 ^ 32 = leValue low) ∧
    (leValue low % 2 = 0 → exec .n0inv s = .next (s.setErr 1)) ∧
    (leValue low % 2 = 1 →
      ∃ a : Word, exec .n0inv s = .next ((s.setN0inv a).setErr 0) ∧
        a.toNat * leValue low % 2 ^ 32 = 2 ^ 32 - 1 ∧ a.toNat % 2 = 1 ∧
        ∀ y : Word, y.toNat * leValue low % 2 ^ 32 = 2 ^ 32 - 1 → y = a)

/-- 41_montgomery.md R136 and R137: RR. Only `N = 0` is InvalidModulus; an even modulus gets its residue. RR_BUF then
holds `2^(16W) mod N`, which is below `N`, and nothing else changes but ERR = 0. -/
def Obligations.RrFollowsItsRule : Prop :=
  ∀ (s : State) (n : List Byte), loadBuf s .nBuf 0 s.cfg.width = .ok n →
    (leValue n = 0 → exec .rr s = .next (s.setErr 1)) ∧
    (leValue n ≠ 0 →
      ∃ t r, exec .rr s = .next t ∧ loadBuf t .rrBuf 0 s.cfg.width = .ok r ∧
        leValue r = 2 ^ (16 * s.cfg.width) % leValue n ∧ leValue r < leValue n ∧
        t.err = 0 ∧ t.n0inv = s.n0inv ∧ t.exp = s.exp ∧ t.msw = s.msw ∧ t.recValid = s.recValid ∧
        t.beLen = s.beLen ∧ sameOutside s t ∧
        ∀ a, ¬ inBuf s.cfg .rrBuf a → t.mem.read? a = s.mem.read? a)

/-- 42_codec.md R151: ENCODE puts the five fields into REC_BUF at their offsets, sets REC_VALID to RECLEN, and changes
nothing else but ERR = 0; no field is checked. -/
def Obligations.EncodeFollowsItsRule : Prop :=
  ∀ (s : State) (n rr : List Byte), s.cfg.Legal → loadBuf s .nBuf 0 s.cfg.width = .ok n →
    loadBuf s .rrBuf 0 s.cfg.width = .ok rr →
      ∃ t, exec .encode s = .next t ∧
        loadBuf t .recBuf 0 4 = .ok (leBytes s.msw.toNat 4) ∧
        loadBuf t .recBuf 4 4 = .ok (leBytes s.n0inv.toNat 4) ∧
        loadBuf t .recBuf 8 s.cfg.width = .ok n ∧
        loadBuf t .recBuf (8 + s.cfg.width) s.cfg.width = .ok rr ∧
        loadBuf t .recBuf (8 + 2 * s.cfg.width) 4 = .ok (leBytes s.exp.toNat 4) ∧
        t.recValid.toNat = 12 + 2 * s.cfg.width ∧ t.err = 0 ∧ t.n0inv = s.n0inv ∧ t.exp = s.exp ∧
        t.msw = s.msw ∧ t.beLen = s.beLen ∧ sameOutside s t ∧
        ∀ a, ¬ inBuf s.cfg .recBuf a → t.mem.read? a = s.mem.read? a

/-- 42_codec.md R153: DECODE. Fewer than RECLEN bytes are TruncatedInput, with no byte of REC_BUF read; otherwise the
five fields are the record's, unchecked, and nothing else changes but ERR = 0. -/
def Obligations.DecodeFollowsItsRule : Prop :=
  ∀ s : State, s.cfg.Legal →
    (s.recValid.toNat < 12 + 2 * s.cfg.width → exec .decode s = .next (s.setErr 3)) ∧
    ∀ r, 12 + 2 * s.cfg.width ≤ s.recValid.toNat → loadBuf s .recBuf 0 (12 + 2 * s.cfg.width) = .ok r →
      ∃ t, exec .decode s = .next t ∧
        t.msw.toNat = leValue (slice r 0 4) ∧ t.n0inv.toNat = leValue (slice r 4 4) ∧
        loadBuf t .nBuf 0 s.cfg.width = .ok (slice r 8 s.cfg.width) ∧
        loadBuf t .rrBuf 0 s.cfg.width = .ok (slice r (8 + s.cfg.width) s.cfg.width) ∧
        t.exp.toNat = leValue (slice r (8 + 2 * s.cfg.width) 4) ∧
        t.err = 0 ∧ t.recValid = s.recValid ∧ t.beLen = s.beLen ∧ sameOutside s t ∧
        ∀ a, ¬ inBuf s.cfg .nBuf a → ¬ inBuf s.cfg .rrBuf a → t.mem.read? a = s.mem.read? a

/-- 43_convert.md R170: CONVERT. An even modulus is InvalidModulus and changes ERR alone; an odd one gets its constant,
its residue, the word count and its record, and nothing else changes but ERR = 0. -/
def Obligations.ConvertFollowsItsRule : Prop :=
  ∀ (s : State) (n : List Byte), s.cfg.Legal → loadBuf s .nBuf 0 s.cfg.width = .ok n →
    (leValue n % 2 = 0 → exec .convert s = .next (s.setErr 1)) ∧
    (leValue n % 2 = 1 →
      ∃ t r, exec .convert s = .next t ∧
        t.n0inv.toNat * leValue n % 2 ^ 32 = 2 ^ 32 - 1 ∧
        loadBuf t .rrBuf 0 s.cfg.width = .ok r ∧ leValue r = 2 ^ (16 * s.cfg.width) % leValue n ∧
        t.msw.toNat = s.cfg.width / 4 ∧
        loadBuf t .recBuf 0 4 = .ok (leBytes (s.cfg.width / 4) 4) ∧
        loadBuf t .recBuf 4 4 = .ok (leBytes t.n0inv.toNat 4) ∧
        loadBuf t .recBuf 8 s.cfg.width = .ok n ∧
        loadBuf t .recBuf (8 + s.cfg.width) s.cfg.width = .ok r ∧
        loadBuf t .recBuf (8 + 2 * s.cfg.width) 4 = .ok (leBytes s.exp.toNat 4) ∧
        t.recValid.toNat = 12 + 2 * s.cfg.width ∧ t.err = 0 ∧ t.exp = s.exp ∧ t.beLen = s.beLen ∧
        sameOutside s t ∧
        ∀ a, ¬ inBuf s.cfg .rrBuf a → ¬ inBuf s.cfg .recBuf a → t.mem.read? a = s.mem.read? a)

/-- The order of checks in 43_convert.md, as the model reads it (log entry 10): CONVERT decides its parity check
on the four low bytes of N_BUF alone, so an even modulus is ERR 1 even where upper bytes were never written, and only an
odd one stops on them. -/
def Obligations.ConvertChecksParityFirst : Prop :=
  ∀ (s : State) (low : List Byte), s.cfg.Legal → loadBuf s .nBuf 0 4 = .ok low →
    (leValue low % 2 = 0 → exec .convert s = .next (s.setErr 1)) ∧
    (leValue low % 2 = 1 → ∀ f, loadBuf s .nBuf 0 s.cfg.width = .error f → exec .convert s = .fault f)

/-! Laws over several commands. -/

/-- 43_convert.md, the equivalence its writer derives: for odd `N`, CONVERT leaves exactly the state the sequence N0INV,
RR, a write of `W/4` to MSW, ENCODE leaves. For even `N` it writes ERR alone, and the sequence ends in ENCODE's success:
for even nonzero `N` its RR has written the residue, and for `N = 0` its RR is ERR 1 too and RR_BUF stays (ENCODE then
needs RR_BUF written, log entry 3). -/
def Obligations.ConvertEqualsTheSeparateCommands : Prop :=
  ∀ (s : State) (n : List Byte), s.Inv → loadBuf s .nBuf 0 s.cfg.width = .ok n →
    (leValue n % 2 = 1 →
      ∃ t₁ t₂ t₃ t₄, exec .n0inv s = .next t₁ ∧ t₁.err = 0 ∧ exec .rr t₁ = .next t₂ ∧ t₂.err = 0 ∧
        transact (.write (Access.word32 0x018) (BitVec.ofNat 32 (s.cfg.width / 4))) t₂ = (t₃, .done) ∧
        exec .encode t₃ = .next t₄ ∧ t₄.err = 0 ∧ exec .convert s = .next t₄) ∧
    (leValue n % 2 = 0 → leValue n ≠ 0 →
      exec .convert s = .next (s.setErr 1) ∧
      ∃ t₁ t₂ t₃ t₄ r, exec .n0inv s = .next t₁ ∧ t₁.err = 1 ∧ exec .rr t₁ = .next t₂ ∧ t₂.err = 0 ∧
        loadBuf t₂ .rrBuf 0 s.cfg.width = .ok r ∧ leValue r = 2 ^ (16 * s.cfg.width) % leValue n ∧
        transact (.write (Access.word32 0x018) (BitVec.ofNat 32 (s.cfg.width / 4))) t₂ = (t₃, .done) ∧
        exec .encode t₃ = .next t₄ ∧ t₄.err = 0 ∧ loadBuf t₄ .rrBuf 0 s.cfg.width = .ok r) ∧
    (leValue n = 0 →
      exec .convert s = .next (s.setErr 1) ∧ exec .n0inv s = .next (s.setErr 1) ∧
      exec .rr (s.setErr 1) = .next (s.setErr 1) ∧
      (Written s .rrBuf 0 s.cfg.width →
        ∃ t₃ t₄, transact (.write (Access.word32 0x018) (BitVec.ofNat 32 (s.cfg.width / 4))) (s.setErr 1) = (t₃, .done) ∧
          exec .encode t₃ = .next t₄ ∧ t₄.err = 0 ∧
          loadBuf t₄ .rrBuf 0 s.cfg.width = loadBuf s .rrBuf 0 s.cfg.width))

/-- 42_codec.md section 4, fields to bytes to fields: ENCODE then DECODE leaves the five fields as they were, and REC_BUF
and REC_VALID as ENCODE wrote them (so DECODE changes nothing at all), with ERR = 0. The premise on N_BUF and RR_BUF is
the model's treatment of never-written bytes (log entry 3). -/
def Obligations.EncodeThenDecodeKeepsTheFields : Prop :=
  ∀ s : State, s.Inv → Written s .nBuf 0 s.cfg.width → Written s .rrBuf 0 s.cfg.width →
    ∃ t, exec .encode s = .next t ∧ exec .decode t = .next t ∧ t.err = 0 ∧ t.msw = s.msw ∧ t.n0inv = s.n0inv ∧
      t.exp = s.exp ∧ loadBuf t .nBuf 0 s.cfg.width = loadBuf s .nBuf 0 s.cfg.width ∧
      loadBuf t .rrBuf 0 s.cfg.width = loadBuf s .rrBuf 0 s.cfg.width

/-- 42_codec.md section 4, bytes to fields to bytes: with a whole record available, DECODE then ENCODE leaves REC_BUF as
it was, sets REC_VALID to RECLEN, and changes nothing else that DECODE left. -/
def Obligations.DecodeThenEncodeKeepsTheRecord : Prop :=
  ∀ s : State, s.Inv → s.cfg.recLen ≤ s.recValid.toNat → Written s .recBuf 0 s.cfg.recLen →
    ∃ t u, exec .decode s = .next t ∧ exec .encode t = .next u ∧ u.err = 0 ∧
      loadBuf u .recBuf 0 s.cfg.recLen = loadBuf s .recBuf 0 s.cfg.recLen ∧
      u.recValid.toNat = s.cfg.recLen ∧ u = t.setRecValid u.recValid

/-- 10_state.md section 4, the table's written-by columns: a command that completes leaves every item outside its
columns as it was, and the build, the host and the reset input too. -/
def Obligations.CommandsWriteOnlyTheirColumns : Prop :=
  ∀ (i : Instr) (s t : State), s.cfg.Legal → exec i s = .next t →
    (∀ x, ¬ writesItem s.cfg i x → sameItem t s x) ∧ sameOutside s t

/-- 10_state.md section 4, the table's read-by columns, and 40_host_interface.md section 2 (determinism): two states of
one build that agree on what a command reads give the same outcome, the same ERR and, on success, the same value of
everything the command writes. N0INV, for one, does not see bytes 4 and up of N_BUF. -/
def Obligations.CommandsReadOnlyTheirColumns : Prop :=
  ∀ (i : Instr) (s₁ s₂ : State), s₁.cfg.Legal → s₁.cfg = s₂.cfg →
    (∀ x, readsItem s₁ i x → sameItem s₁ s₂ x) →
      (∀ t₁, exec i s₁ = .next t₁ →
        ∃ t₂, exec i s₂ = .next t₂ ∧ t₁.err = t₂.err ∧
          (t₁.err = 0 → ∀ x, writesItem s₁.cfg i x → sameItem t₁ t₂ x)) ∧
      ∀ f, exec i s₁ = .fault f → exec i s₂ = .fault f

/-- 60_exceptions.md R181: `raise Error(code)` writes the code to STATUS.ERR and nothing else. A CMD write whose command
ends in an error is done all the same, its state is the state before it but for STATUS.ERR, and STATUS then reads as
the code, bits 31:4 zero. -/
def Obligations.FailedCommandsWriteOnlyErr : Prop :=
  (∀ (e : ErrCode) (s : State), raise e s = .next (s.setErr (errCodeBits e))) ∧
  ∀ (v : Word) (s t : State), issueCommand v s = .next t → t.err ≠ 0 →
    transact (.write (Access.word32 0x000) v) s = (t, .done) ∧ t = s.setErr t.err ∧
      transact (.read (Access.word32 0x004)) t = (t, .data (t.err.zeroExtend 32)) ∧
      ∃ c : ErrCode, c ≠ .ok ∧ raise c s = .next t

/-- 60_exceptions.md R180: the code of every command that completes, with its cause, row by row of the table. The code is
the only information an error leaves. -/
def Obligations.EveryOutcomeCodeHasItsCause : Prop :=
  ∀ s t : State,
    (exec .loadN s = .next t →
      (t.err = 5 ↔ 2 * s.cfg.width < s.beLen.toNat) ∧
      (t.err = 2 ↔ s.beLen.toNat ≤ 2 * s.cfg.width ∧
        ∃ be, loadBuf s .beBuf 0 s.beLen.toNat = .ok be ∧ 2 ^ (8 * s.cfg.width) ≤ beValue be) ∧
      (t.err = 0 ∨ t.err = 2 ∨ t.err = 5)) ∧
    (exec .n0inv s = .next t →
      (t.err = 1 ↔ ∃ b, s.mem.read? (bufBase .nBuf) = some b ∧ b.toNat % 2 = 0) ∧ (t.err = 0 ∨ t.err = 1)) ∧
    (exec .rr s = .next t →
      (t.err = 1 ↔ ∀ i, i < s.cfg.width → s.mem.read? (bufBase .nBuf + i) = some 0) ∧
      (t.err = 0 ∨ t.err = 1)) ∧
    (exec .encode s = .next t → t.err = 0) ∧
    (exec .decode s = .next t →
      (t.err = 3 ↔ s.recValid.toNat < 12 + 2 * s.cfg.width) ∧ (t.err = 0 ∨ t.err = 3)) ∧
    (exec .convert s = .next t →
      (t.err = 1 ↔ ∃ b, s.mem.read? (bufBase .nBuf) = some b ∧ b.toNat % 2 = 0) ∧ (t.err = 0 ∨ t.err = 1)) ∧
    (∀ v e, decode v = .error e → issueCommand v s = .next t → t.err = 4) ∧
    ∀ i, exec i s = .next t → t.err ≠ 0 → t = s.setErr t.err

/-- 20_memory.md section 2 (side effects): issuing a command twice with nothing between leaves the state of issuing it
once. The premise keeps memory in its one canonical form. -/
def Obligations.CommandsAreIdempotent : Prop :=
  ∀ (i : Instr) (s t : State), s.Inv → exec i s = .next t → exec i t = .next t

/-- 70_reset_and_hazards.md sections 1 and 2: a command whose operand bytes have all been written completes; it stops
only on an operand byte never written since reset, which it names; and it never refuses. -/
def Obligations.CommandsStopOnlyOnUnwrittenOperands : Prop :=
  ∀ (i : Instr) (s : State), s.cfg.Legal →
    ((∀ off, readsItem s i (.byte off) → (s.mem.read? off).isSome) → ∃ t, exec i s = .next t) ∧
    (∀ f, exec i s = .fault f →
      ∃ off, readsItem s i (.byte off) ∧ s.mem.read? off = none ∧ f = .unwrittenByte off) ∧
    ∀ r, exec i s ≠ .refused r

/-! Rules over every step. -/

/-- 40_host_interface.md section 2: the block never steps on its own. A step with reset released whose line is no bus
write leaves all of the block as it was; only the host and the reset input move. -/
def Obligations.OnlyWritesAndResetChangeTheBlock : Prop :=
  ∀ s t : State, step s = .next t → s.resetIn.head? ≠ some true →
    (∀ a v, s.host.prog[s.host.line]? ≠ some (.wr a v)) →
      t = (s.setResetIn s.resetIn.tail).setHost t.host

/-- 10_state.md section 2 (STATUS) and 40_host_interface.md section 2: only a CMD write or a reset changes STATUS. -/
def Obligations.OnlyCommandsAndResetChangeStatus : Prop :=
  ∀ s t : State, step s = .next t → t.err ≠ s.err →
    s.resetIn.head? = some true ∨
      ∃ a v, s.host.prog[s.host.line]? = some (.wr a v) ∧ a.off = 0x000 ∧ a.bytes = 4 ∧ a.lanes = 0xF

/-- 10_state.md section 2 (CONFIG, RECLEN): no step changes the build or the window's address. -/
def Obligations.StepKeepsTheBuild : Prop :=
  ∀ s t : State, step s = .next t → t.cfg = s.cfg

/-- The invariant holds right after reset, in every legal build and in the reference one. -/
def Obligations.InvariantHoldsAtReset : Prop :=
  (∀ c : Config, c.Legal → (State.resetOf c).Inv ∧ (State.resetOf c).WholeWords) ∧ State.reset.Inv

/-- Every step keeps the invariant: a legal build, memory canonical and inside the buffers, STATUS.ERR one of the six
codes of 60_exceptions.md. -/
def Obligations.StepKeepsTheInvariant : Prop :=
  ∀ s t : State, s.Inv → step s = .next t → t.Inv

/-- 20_memory.md sections 1 and 5: every step keeps buffers written in whole bus words, so a bus read never meets a
half-written word. -/
def Obligations.StepKeepsWordsWhole : Prop :=
  ∀ s t : State, s.Inv → s.WholeWords → step s = .next t → t.WholeWords

/-- 00_scope.md section 3 and 92_eei_decisions.md D2: no rule depends on BASE. Moving the window moves no outcome. -/
def Obligations.WindowAddressIsInvisible : Prop :=
  ∀ (b : Nat) (s : State), step (withBase b s) =
    match step s with
    | .next t => .next (withBase b t)
    | .fault f => .fault f
    | .refused r => .refused r

/-- 20_memory.md section 1: in a legal build every buffer is a whole number of words, fits its 4 KiB window and shares
no offset with another, so no bus word straddles a buffer's end. -/
def Obligations.BuffersAreWholeWordsAndApart : Prop :=
  ∀ c : Config, c.Legal →
    (∀ b, bufSize c b % 4 = 0 ∧ bufSize c b ≤ 0x1000) ∧
    (∀ b d off, inBuf c b off → inBuf c d off → b = d) ∧
    ∀ b off, off % 4 = 0 → inBuf c b off → inBuf c b (off + 3)
end

