-- ==== Sys2Proof/Laws/Arith.lean ====
section
/-! SUPPORT. What the two Montgomery units compute (41_montgomery.md R130, R131, R136, R137). -/

namespace Sys2Proof.Machine

/-- One Newton-Hensel step squares the error `1 - t*x`. -/
theorem inv32Step_error (t x : Word) : 1 - t * inv32Step t x = (1 - t * x) * (1 - t * x) := by
  simp only [inv32Step]
  ring

/-- An odd word is its own inverse modulo 8 (41_montgomery.md R133). -/
theorem odd_square_error {t : Nat} (h : t % 2 = 1) :
    ∃ k : Word, 1 - (BitVec.ofNat 32 t : Word) * BitVec.ofNat 32 t = 8 * k := by
  obtain ⟨j, rfl⟩ : ∃ j, t = 2 * j + 1 := ⟨t / 2, by omega⟩
  obtain ⟨m, hm⟩ := (Nat.even_mul_succ_self j).two_dvd
  refine ⟨-BitVec.ofNat 32 m, ?_⟩
  have hm' : (BitVec.ofNat 32 j : Word) * (BitVec.ofNat 32 j + 1) = 2 * BitVec.ofNat 32 m := by
    have := congrArg (BitVec.ofNat 32) hm
    simpa [BitVec.ofNat_mul, BitVec.ofNat_add] using this
  have ht : (BitVec.ofNat 32 (2 * j + 1) : Word) = 2 * BitVec.ofNat 32 j + 1 := by
    simp [BitVec.ofNat_mul, BitVec.ofNat_add]
  rw [ht]
  linear_combination (-4 : Word) * hm'

/-- `inv32(t)` is the inverse of an odd `t` modulo 2^32 (00_scope.md R16). -/
theorem inv32_mul {t : Nat} (h : t % 2 = 1) : t * inv32 t % 2 ^ 32 = 1 := by
  obtain ⟨k, hk⟩ := odd_square_error h
  generalize hw : (BitVec.ofNat 32 t : Word) = w at hk
  have h8 : (8 : Word) ^ 16 = 0 := by decide
  have herr : 1 - w * inv32Step w (inv32Step w (inv32Step w (inv32Step w w))) = 0 := by
    simp only [inv32Step_error, hk]
    linear_combination k ^ 16 * h8
  have hone := congrArg BitVec.toNat (sub_eq_zero.mp herr).symm
  have hwt : w.toNat = t % 2 ^ 32 := by rw [← hw, BitVec.toNat_ofNat]
  rw [BitVec.toNat_mul, hwt] at hone
  rw [inv32, hw, Nat.mul_mod, ← Nat.mod_mod t, ← Nat.mul_mod]
  exact hone

theorem inv32_lt (t : Nat) : inv32 t < 2 ^ 32 := BitVec.isLt _

theorem montN0inv_lt (t : Nat) : montN0inv t < 2 ^ 32 := Nat.mod_lt _ (by norm_num)

/-- The Montgomery constant is the negated inverse (41_montgomery.md R131). -/
theorem montN0inv_mul {t : Nat} (h : t % 2 = 1) : montN0inv t * t % 2 ^ 32 = 2 ^ 32 - 1 := by
  have hinv := inv32_mul h
  have hlt := inv32_lt t
  have hsum : (montN0inv t * t + t * inv32 t) % 2 ^ 32 = 0 := by
    have : (montN0inv t + inv32 t) % 2 ^ 32 = 0 := by
      simp only [montN0inv]
      omega
    rw [mul_comm t, ← add_mul, Nat.mul_mod, this]
    simp
  generalize montN0inv t * t = a at *
  generalize t * inv32 t = b at *
  omega

/-- The Montgomery constant is always odd (41_montgomery.md R130). -/
theorem montN0inv_odd {t : Nat} (h : t % 2 = 1) : montN0inv t % 2 = 1 := by
  by_contra hne
  have hev : montN0inv t % 2 = 0 := by omega
  have hprod : montN0inv t * t % 2 = 0 := by rw [Nat.mul_mod, hev]; simp
  have hmul := montN0inv_mul h
  omega

/-- Two words with one product with an odd `t` are one word, so the Montgomery constant is unique
(41_montgomery.md R131). -/
theorem odd_mul_cancel {t a b : Nat} (h : t % 2 = 1) (ha : a < 2 ^ 32) (hb : b < 2 ^ 32)
    (hab : a * t % 2 ^ 32 = b * t % 2 ^ 32) : a = b := by
  have hcop : Nat.Coprime (2 ^ 32) t :=
    (Nat.coprime_pow_left_iff (by norm_num) 2 t).mpr (Nat.coprime_two_left.mpr (Nat.odd_iff.mpr h))
  have := Nat.ModEq.cancel_right_of_coprime hcop hab
  rwa [Nat.ModEq, Nat.mod_eq_of_lt ha, Nat.mod_eq_of_lt hb] at this

/-- The residue is below the modulus (41_montgomery.md R137). -/
theorem montRr_lt (w : Nat) {n : Nat} (h : n ≠ 0) : montRr w n < n := Nat.mod_lt _ (Nat.pos_of_ne_zero h)

end Sys2Proof.Machine
end

