-- ==== Sys2Proof/Laws/Bytes.lean ====
section
/-! SUPPORT. The byte-string primitives of 00_scope.md R14 and the record layout of 42_codec.md R150: lengths, values
and round trips. -/

namespace Sys2Proof.Machine

@[simp] theorem leBytes_length (v n : Nat) : (leBytes v n).length = n := by
  induction n generalizing v with
  | zero => rfl
  | succ n ih => simp [leBytes, ih]

@[simp] theorem beBytes_length (v n : Nat) : (beBytes v n).length = n := by
  induction n with
  | zero => rfl
  | succ n ih => simp [beBytes, ih]

@[simp] theorem padBigEndian_length (v n : Nat) : (padBigEndian v n).length = n := beBytes_length v n

@[simp] theorem reverseBytes_length (bs : List Byte) : (reverseBytes bs).length = bs.length := by
  simp [reverseBytes]

theorem leValue_append (xs ys : List Byte) :
    leValue (xs ++ ys) = leValue xs + 256 ^ xs.length * leValue ys := by
  induction xs with
  | nil => simp [leValue]
  | cons x xs ih => simp [leValue, ih, pow_succ]; ring

theorem beValue_append (xs ys : List Byte) :
    beValue (xs ++ ys) = beValue xs * 256 ^ ys.length + beValue ys := by
  induction xs with
  | nil => simp [beValue]
  | cons x xs ih => simp [beValue, ih, pow_add]; ring

theorem leValue_lt (bs : List Byte) : leValue bs < 256 ^ bs.length := by
  induction bs with
  | nil => simp [leValue]
  | cons b bs ih =>
    have hb := b.isLt
    simp only [leValue, List.length_cons, pow_succ]
    omega

/-- Little-endian and big-endian are each other's reversal. -/
theorem beValue_reverse (bs : List Byte) : beValue bs.reverse = leValue bs := by
  induction bs with
  | nil => rfl
  | cons b bs ih => simp [leValue, beValue_append, ih, beValue]; ring

theorem beValue_lt (bs : List Byte) : beValue bs < 256 ^ bs.length := by
  have h := leValue_lt bs.reverse
  rwa [← beValue_reverse, List.reverse_reverse, List.length_reverse] at h

theorem leValue_leBytes (v n : Nat) : leValue (leBytes v n) = v % 256 ^ n := by
  induction n generalizing v with
  | zero => simp [leBytes, leValue, Nat.mod_one]
  | succ n ih =>
    rw [pow_succ, mul_comm (256 ^ n) 256, Nat.mod_mul]
    simp only [leBytes, leValue, ih, BitVec.toNat_ofNat]

theorem leValue_leBytes_of_lt {v n : Nat} (h : v < 256 ^ n) : leValue (leBytes v n) = v := by
  rw [leValue_leBytes, Nat.mod_eq_of_lt h]

theorem leBytes_leValue (bs : List Byte) : leBytes (leValue bs) bs.length = bs := by
  induction bs with
  | nil => rfl
  | cons b bs ih =>
    have hb := b.isLt
    have hdiv : (b.toNat + 256 * leValue bs) / 256 = leValue bs := by omega
    simp only [leValue, List.length_cons, leBytes, hdiv, ih, List.cons.injEq, and_true]
    apply BitVec.eq_of_toNat_eq
    simp only [BitVec.toNat_ofNat]
    omega

/-- Byte strings of one length with one value are one string. -/
theorem leValue_injective {xs ys : List Byte} (hl : xs.length = ys.length) (hv : leValue xs = leValue ys) :
    xs = ys := by
  rw [← leBytes_leValue xs, ← leBytes_leValue ys, hl, hv]

theorem leBytes_append (v m n : Nat) : leBytes v (m + n) = leBytes v m ++ leBytes (v / 256 ^ m) n := by
  induction m generalizing v with
  | zero => simp [leBytes]
  | succ m ih =>
    rw [Nat.succ_add]
    simp only [leBytes, ih, List.cons_append, pow_succ, Nat.div_div_eq_div_mul, mul_comm 256]

/-- ReverseBytes of PadBigEndian is the little-endian layout (41_montgomery.md R123). -/
theorem reverse_beBytes (v n : Nat) : (beBytes v n).reverse = leBytes v n := by
  induction n with
  | zero => rfl
  | succ n ih =>
    rw [leBytes_append v n 1]
    simp [beBytes, ih, leBytes]

theorem reverseBytes_padBigEndian (v n : Nat) : reverseBytes (padBigEndian v n) = leBytes v n :=
  reverse_beBytes v n

theorem beValue_beBytes (v n : Nat) : beValue (beBytes v n) = v % 256 ^ n := by
  rw [← List.reverse_reverse (beBytes v n), beValue_reverse, reverse_beBytes, leValue_leBytes]

/-- A bus word survives its four byte lanes (20_memory.md R69). -/
@[simp] theorem word_of_leBytes (w : Word) : BitVec.ofNat 32 (leValue (leBytes w.toNat 4)) = w := by
  have h : w.toNat < 256 ^ 4 := by have := w.isLt; omega
  simp [leValue_leBytes_of_lt h]

theorem leBytes_of_word {bs : List Byte} (h : bs.length = 4) :
    leBytes (BitVec.ofNat 32 (leValue bs)).toNat 4 = bs := by
  have hlt := leValue_lt bs
  rw [h] at hlt
  have : (BitVec.ofNat 32 (leValue bs)).toNat = leValue bs := by
    simp only [BitVec.toNat_ofNat]
    omega
  rw [this, ← h, leBytes_leValue]

theorem slice_length {bs : List Byte} {a n : Nat} (h : a + n ≤ bs.length) : (slice bs a n).length = n := by
  simp only [slice, List.length_take, List.length_drop]
  omega

/-- The slice of a byte string that stands behind `xs` and before `zs`. -/
theorem slice_middle (xs ys zs : List Byte) {a n : Nat} (ha : a = xs.length) (hn : n = ys.length) :
    slice (xs ++ ys ++ zs) a n = ys := by
  subst ha hn
  simp [slice, List.append_assoc]

/-- Two neighbouring slices are one. -/
theorem slice_append_slice (bs : List Byte) (a m n : Nat) :
    slice bs a m ++ slice bs (a + m) n = slice bs a (m + n) := by
  simp only [slice, ← List.drop_drop, ← List.take_add]

@[simp] theorem recordBytes_length (msw n0inv : Word) (n rr : List Byte) (exp : Word) :
    (recordBytes msw n0inv n rr exp).length = 12 + n.length + rr.length := by
  simp [recordBytes]
  omega

theorem recordBytes_msw (msw n0inv : Word) (n rr : List Byte) (exp : Word) :
    slice (recordBytes msw n0inv n rr exp) 0 4 = leBytes msw.toNat 4 := by
  have := slice_middle [] (leBytes msw.toNat 4) (leBytes n0inv.toNat 4 ++ n ++ rr ++ leBytes exp.toNat 4)
    (a := 0) (n := 4) (by simp) (by simp)
  simpa [recordBytes] using this

theorem recordBytes_n0inv (msw n0inv : Word) (n rr : List Byte) (exp : Word) :
    slice (recordBytes msw n0inv n rr exp) 4 4 = leBytes n0inv.toNat 4 := by
  have := slice_middle (leBytes msw.toNat 4) (leBytes n0inv.toNat 4) (n ++ rr ++ leBytes exp.toNat 4)
    (a := 4) (n := 4) (by simp) (by simp)
  simpa [recordBytes] using this

theorem recordBytes_modulus (msw n0inv : Word) (n rr : List Byte) (exp : Word) :
    slice (recordBytes msw n0inv n rr exp) 8 n.length = n := by
  have := slice_middle (leBytes msw.toNat 4 ++ leBytes n0inv.toNat 4) n (rr ++ leBytes exp.toNat 4)
    (a := 8) (n := n.length) (by simp) rfl
  simpa [recordBytes] using this

theorem recordBytes_rr (msw n0inv : Word) (n rr : List Byte) (exp : Word) :
    slice (recordBytes msw n0inv n rr exp) (8 + n.length) rr.length = rr := by
  have := slice_middle (leBytes msw.toNat 4 ++ leBytes n0inv.toNat 4 ++ n) rr (leBytes exp.toNat 4)
    (a := 8 + n.length) (n := rr.length) (by simp; omega) rfl
  simpa [recordBytes] using this

theorem recordBytes_exp (msw n0inv : Word) (n rr : List Byte) (exp : Word) :
    slice (recordBytes msw n0inv n rr exp) (8 + n.length + rr.length) 4 = leBytes exp.toNat 4 := by
  have := slice_middle (leBytes msw.toNat 4 ++ leBytes n0inv.toNat 4 ++ n ++ rr) (leBytes exp.toNat 4) []
    (a := 8 + n.length + rr.length) (n := 4) (by simp; omega) (by simp)
  simpa [recordBytes] using this

/-- Parsing a whole record and serializing the fields gives the record back (42_codec.md R157). -/
theorem recordBytes_of_slices {bs : List Byte} {w : Nat} (h : bs.length = 12 + 2 * w) :
    recordBytes (BitVec.ofNat 32 (leValue (slice bs 0 4))) (BitVec.ofNat 32 (leValue (slice bs 4 4)))
      (slice bs 8 w) (slice bs (8 + w) w) (BitVec.ofNat 32 (leValue (slice bs (8 + 2 * w) 4))) = bs := by
  rw [recordBytes, leBytes_of_word (slice_length (by omega)), leBytes_of_word (slice_length (by omega)),
    leBytes_of_word (slice_length (by omega))]
  have h1 := slice_append_slice bs 0 4 4
  have h2 := slice_append_slice bs 0 8 w
  have h3 := slice_append_slice bs 0 (8 + w) w
  have h4 := slice_append_slice bs 0 (8 + 2 * w) 4
  simp only [Nat.zero_add, show 8 + w + w = 8 + 2 * w by omega] at h1 h2 h3 h4
  rw [h1, h2, h3, h4]
  simp only [slice, List.drop_zero]
  exact List.take_of_length_le (by omega)

end Sys2Proof.Machine
end

