-- ==== Sys2Proof/Laws/State.lean ====
section
/-! SUPPORT. What each named update of State leaves in each field, so that no proof unfolds a record update; and the
same for the operations that are one such update. -/

namespace Sys2Proof.Machine

namespace State

@[simp] theorem setErr_cfg (s : State) (v : BitVec 4) : (s.setErr v).cfg = s.cfg := rfl
@[simp] theorem setErr_err (s : State) (v : BitVec 4) : (s.setErr v).err = v := rfl
@[simp] theorem setErr_n0inv (s : State) (v : BitVec 4) : (s.setErr v).n0inv = s.n0inv := rfl
@[simp] theorem setErr_exp (s : State) (v : BitVec 4) : (s.setErr v).exp = s.exp := rfl
@[simp] theorem setErr_msw (s : State) (v : BitVec 4) : (s.setErr v).msw = s.msw := rfl
@[simp] theorem setErr_recValid (s : State) (v : BitVec 4) : (s.setErr v).recValid = s.recValid := rfl
@[simp] theorem setErr_beLen (s : State) (v : BitVec 4) : (s.setErr v).beLen = s.beLen := rfl
@[simp] theorem setErr_mem (s : State) (v : BitVec 4) : (s.setErr v).mem = s.mem := rfl
@[simp] theorem setErr_resetIn (s : State) (v : BitVec 4) : (s.setErr v).resetIn = s.resetIn := rfl
@[simp] theorem setErr_host (s : State) (v : BitVec 4) : (s.setErr v).host = s.host := rfl

@[simp] theorem setN0inv_cfg (s : State) (v : Word) : (s.setN0inv v).cfg = s.cfg := rfl
@[simp] theorem setN0inv_err (s : State) (v : Word) : (s.setN0inv v).err = s.err := rfl
@[simp] theorem setN0inv_n0inv (s : State) (v : Word) : (s.setN0inv v).n0inv = v := rfl
@[simp] theorem setN0inv_exp (s : State) (v : Word) : (s.setN0inv v).exp = s.exp := rfl
@[simp] theorem setN0inv_msw (s : State) (v : Word) : (s.setN0inv v).msw = s.msw := rfl
@[simp] theorem setN0inv_recValid (s : State) (v : Word) : (s.setN0inv v).recValid = s.recValid := rfl
@[simp] theorem setN0inv_beLen (s : State) (v : Word) : (s.setN0inv v).beLen = s.beLen := rfl
@[simp] theorem setN0inv_mem (s : State) (v : Word) : (s.setN0inv v).mem = s.mem := rfl
@[simp] theorem setN0inv_resetIn (s : State) (v : Word) : (s.setN0inv v).resetIn = s.resetIn := rfl
@[simp] theorem setN0inv_host (s : State) (v : Word) : (s.setN0inv v).host = s.host := rfl

@[simp] theorem setExp_cfg (s : State) (v : Word) : (s.setExp v).cfg = s.cfg := rfl
@[simp] theorem setExp_err (s : State) (v : Word) : (s.setExp v).err = s.err := rfl
@[simp] theorem setExp_n0inv (s : State) (v : Word) : (s.setExp v).n0inv = s.n0inv := rfl
@[simp] theorem setExp_exp (s : State) (v : Word) : (s.setExp v).exp = v := rfl
@[simp] theorem setExp_msw (s : State) (v : Word) : (s.setExp v).msw = s.msw := rfl
@[simp] theorem setExp_recValid (s : State) (v : Word) : (s.setExp v).recValid = s.recValid := rfl
@[simp] theorem setExp_beLen (s : State) (v : Word) : (s.setExp v).beLen = s.beLen := rfl
@[simp] theorem setExp_mem (s : State) (v : Word) : (s.setExp v).mem = s.mem := rfl
@[simp] theorem setExp_resetIn (s : State) (v : Word) : (s.setExp v).resetIn = s.resetIn := rfl
@[simp] theorem setExp_host (s : State) (v : Word) : (s.setExp v).host = s.host := rfl

@[simp] theorem setMsw_cfg (s : State) (v : Word) : (s.setMsw v).cfg = s.cfg := rfl
@[simp] theorem setMsw_err (s : State) (v : Word) : (s.setMsw v).err = s.err := rfl
@[simp] theorem setMsw_n0inv (s : State) (v : Word) : (s.setMsw v).n0inv = s.n0inv := rfl
@[simp] theorem setMsw_exp (s : State) (v : Word) : (s.setMsw v).exp = s.exp := rfl
@[simp] theorem setMsw_msw (s : State) (v : Word) : (s.setMsw v).msw = v := rfl
@[simp] theorem setMsw_recValid (s : State) (v : Word) : (s.setMsw v).recValid = s.recValid := rfl
@[simp] theorem setMsw_beLen (s : State) (v : Word) : (s.setMsw v).beLen = s.beLen := rfl
@[simp] theorem setMsw_mem (s : State) (v : Word) : (s.setMsw v).mem = s.mem := rfl
@[simp] theorem setMsw_resetIn (s : State) (v : Word) : (s.setMsw v).resetIn = s.resetIn := rfl
@[simp] theorem setMsw_host (s : State) (v : Word) : (s.setMsw v).host = s.host := rfl

@[simp] theorem setRecValid_cfg (s : State) (v : Word) : (s.setRecValid v).cfg = s.cfg := rfl
@[simp] theorem setRecValid_err (s : State) (v : Word) : (s.setRecValid v).err = s.err := rfl
@[simp] theorem setRecValid_n0inv (s : State) (v : Word) : (s.setRecValid v).n0inv = s.n0inv := rfl
@[simp] theorem setRecValid_exp (s : State) (v : Word) : (s.setRecValid v).exp = s.exp := rfl
@[simp] theorem setRecValid_msw (s : State) (v : Word) : (s.setRecValid v).msw = s.msw := rfl
@[simp] theorem setRecValid_recValid (s : State) (v : Word) : (s.setRecValid v).recValid = v := rfl
@[simp] theorem setRecValid_beLen (s : State) (v : Word) : (s.setRecValid v).beLen = s.beLen := rfl
@[simp] theorem setRecValid_mem (s : State) (v : Word) : (s.setRecValid v).mem = s.mem := rfl
@[simp] theorem setRecValid_resetIn (s : State) (v : Word) : (s.setRecValid v).resetIn = s.resetIn := rfl
@[simp] theorem setRecValid_host (s : State) (v : Word) : (s.setRecValid v).host = s.host := rfl

@[simp] theorem setBeLen_cfg (s : State) (v : Word) : (s.setBeLen v).cfg = s.cfg := rfl
@[simp] theorem setBeLen_err (s : State) (v : Word) : (s.setBeLen v).err = s.err := rfl
@[simp] theorem setBeLen_n0inv (s : State) (v : Word) : (s.setBeLen v).n0inv = s.n0inv := rfl
@[simp] theorem setBeLen_exp (s : State) (v : Word) : (s.setBeLen v).exp = s.exp := rfl
@[simp] theorem setBeLen_msw (s : State) (v : Word) : (s.setBeLen v).msw = s.msw := rfl
@[simp] theorem setBeLen_recValid (s : State) (v : Word) : (s.setBeLen v).recValid = s.recValid := rfl
@[simp] theorem setBeLen_beLen (s : State) (v : Word) : (s.setBeLen v).beLen = v := rfl
@[simp] theorem setBeLen_mem (s : State) (v : Word) : (s.setBeLen v).mem = s.mem := rfl
@[simp] theorem setBeLen_resetIn (s : State) (v : Word) : (s.setBeLen v).resetIn = s.resetIn := rfl
@[simp] theorem setBeLen_host (s : State) (v : Word) : (s.setBeLen v).host = s.host := rfl

@[simp] theorem setMem_cfg (s : State) (v : Memory) : (s.setMem v).cfg = s.cfg := rfl
@[simp] theorem setMem_err (s : State) (v : Memory) : (s.setMem v).err = s.err := rfl
@[simp] theorem setMem_n0inv (s : State) (v : Memory) : (s.setMem v).n0inv = s.n0inv := rfl
@[simp] theorem setMem_exp (s : State) (v : Memory) : (s.setMem v).exp = s.exp := rfl
@[simp] theorem setMem_msw (s : State) (v : Memory) : (s.setMem v).msw = s.msw := rfl
@[simp] theorem setMem_recValid (s : State) (v : Memory) : (s.setMem v).recValid = s.recValid := rfl
@[simp] theorem setMem_beLen (s : State) (v : Memory) : (s.setMem v).beLen = s.beLen := rfl
@[simp] theorem setMem_mem (s : State) (v : Memory) : (s.setMem v).mem = v := rfl
@[simp] theorem setMem_resetIn (s : State) (v : Memory) : (s.setMem v).resetIn = s.resetIn := rfl
@[simp] theorem setMem_host (s : State) (v : Memory) : (s.setMem v).host = s.host := rfl

@[simp] theorem setResetIn_cfg (s : State) (v : List Bool) : (s.setResetIn v).cfg = s.cfg := rfl
@[simp] theorem setResetIn_err (s : State) (v : List Bool) : (s.setResetIn v).err = s.err := rfl
@[simp] theorem setResetIn_n0inv (s : State) (v : List Bool) : (s.setResetIn v).n0inv = s.n0inv := rfl
@[simp] theorem setResetIn_exp (s : State) (v : List Bool) : (s.setResetIn v).exp = s.exp := rfl
@[simp] theorem setResetIn_msw (s : State) (v : List Bool) : (s.setResetIn v).msw = s.msw := rfl
@[simp] theorem setResetIn_recValid (s : State) (v : List Bool) : (s.setResetIn v).recValid = s.recValid := rfl
@[simp] theorem setResetIn_beLen (s : State) (v : List Bool) : (s.setResetIn v).beLen = s.beLen := rfl
@[simp] theorem setResetIn_mem (s : State) (v : List Bool) : (s.setResetIn v).mem = s.mem := rfl
@[simp] theorem setResetIn_resetIn (s : State) (v : List Bool) : (s.setResetIn v).resetIn = v := rfl
@[simp] theorem setResetIn_host (s : State) (v : List Bool) : (s.setResetIn v).host = s.host := rfl

@[simp] theorem setHost_cfg (s : State) (v : HostAgent) : (s.setHost v).cfg = s.cfg := rfl
@[simp] theorem setHost_err (s : State) (v : HostAgent) : (s.setHost v).err = s.err := rfl
@[simp] theorem setHost_n0inv (s : State) (v : HostAgent) : (s.setHost v).n0inv = s.n0inv := rfl
@[simp] theorem setHost_exp (s : State) (v : HostAgent) : (s.setHost v).exp = s.exp := rfl
@[simp] theorem setHost_msw (s : State) (v : HostAgent) : (s.setHost v).msw = s.msw := rfl
@[simp] theorem setHost_recValid (s : State) (v : HostAgent) : (s.setHost v).recValid = s.recValid := rfl
@[simp] theorem setHost_beLen (s : State) (v : HostAgent) : (s.setHost v).beLen = s.beLen := rfl
@[simp] theorem setHost_mem (s : State) (v : HostAgent) : (s.setHost v).mem = s.mem := rfl
@[simp] theorem setHost_resetIn (s : State) (v : HostAgent) : (s.setHost v).resetIn = s.resetIn := rfl
@[simp] theorem setHost_host (s : State) (v : HostAgent) : (s.setHost v).host = v := rfl

@[simp] theorem resetOf_cfg (c : Config) : (resetOf c).cfg = c := rfl
@[simp] theorem resetOf_err (c : Config) : (resetOf c).err = 0 := rfl
@[simp] theorem resetOf_n0inv (c : Config) : (resetOf c).n0inv = 0 := rfl
@[simp] theorem resetOf_exp (c : Config) : (resetOf c).exp = 0 := rfl
@[simp] theorem resetOf_msw (c : Config) : (resetOf c).msw = 0 := rfl
@[simp] theorem resetOf_recValid (c : Config) : (resetOf c).recValid = 0 := rfl
@[simp] theorem resetOf_beLen (c : Config) : (resetOf c).beLen = 0 := rfl
@[simp] theorem resetOf_mem (c : Config) : (resetOf c).mem = [] := rfl
@[simp] theorem resetOf_resetIn (c : Config) : (resetOf c).resetIn = [] := rfl
@[simp] theorem resetOf_host (c : Config) : (resetOf c).host = { prog := [], line := 0, vars := Vector.replicate 8 0 } := rfl

/-- A state is what its ten fields are: two states with equal fields are equal. -/
@[ext] theorem ext_fields {s t : State} (cfg : s.cfg = t.cfg) (err : s.err = t.err) (n0inv : s.n0inv = t.n0inv)
    (exp : s.exp = t.exp) (msw : s.msw = t.msw) (recValid : s.recValid = t.recValid) (beLen : s.beLen = t.beLen)
    (mem : s.mem = t.mem) (resetIn : s.resetIn = t.resetIn) (host : s.host = t.host) : s = t := by
  cases s
  cases t
  simp_all

end State

@[simp] theorem raiseError_cfg (e : ErrCode) (s : State) : (raiseError e s).cfg = s.cfg := rfl
@[simp] theorem raiseError_err (e : ErrCode) (s : State) : (raiseError e s).err = errCodeBits e := rfl
@[simp] theorem raiseError_n0inv (e : ErrCode) (s : State) : (raiseError e s).n0inv = s.n0inv := rfl
@[simp] theorem raiseError_exp (e : ErrCode) (s : State) : (raiseError e s).exp = s.exp := rfl
@[simp] theorem raiseError_msw (e : ErrCode) (s : State) : (raiseError e s).msw = s.msw := rfl
@[simp] theorem raiseError_recValid (e : ErrCode) (s : State) : (raiseError e s).recValid = s.recValid := rfl
@[simp] theorem raiseError_beLen (e : ErrCode) (s : State) : (raiseError e s).beLen = s.beLen := rfl
@[simp] theorem raiseError_mem (e : ErrCode) (s : State) : (raiseError e s).mem = s.mem := rfl
@[simp] theorem raiseError_resetIn (e : ErrCode) (s : State) : (raiseError e s).resetIn = s.resetIn := rfl
@[simp] theorem raiseError_host (e : ErrCode) (s : State) : (raiseError e s).host = s.host := rfl

@[simp] theorem storeBuf_cfg (s : State) (b : Buffer) (i : Nat) (bs : List Byte) :
    (storeBuf s b i bs).cfg = s.cfg := rfl
@[simp] theorem storeBuf_err (s : State) (b : Buffer) (i : Nat) (bs : List Byte) :
    (storeBuf s b i bs).err = s.err := rfl
@[simp] theorem storeBuf_n0inv (s : State) (b : Buffer) (i : Nat) (bs : List Byte) :
    (storeBuf s b i bs).n0inv = s.n0inv := rfl
@[simp] theorem storeBuf_exp (s : State) (b : Buffer) (i : Nat) (bs : List Byte) :
    (storeBuf s b i bs).exp = s.exp := rfl
@[simp] theorem storeBuf_msw (s : State) (b : Buffer) (i : Nat) (bs : List Byte) :
    (storeBuf s b i bs).msw = s.msw := rfl
@[simp] theorem storeBuf_recValid (s : State) (b : Buffer) (i : Nat) (bs : List Byte) :
    (storeBuf s b i bs).recValid = s.recValid := rfl
@[simp] theorem storeBuf_beLen (s : State) (b : Buffer) (i : Nat) (bs : List Byte) :
    (storeBuf s b i bs).beLen = s.beLen := rfl
@[simp] theorem storeBuf_mem (s : State) (b : Buffer) (i : Nat) (bs : List Byte) :
    (storeBuf s b i bs).mem = s.mem.write (bufBase b + i) bs := rfl
@[simp] theorem storeBuf_resetIn (s : State) (b : Buffer) (i : Nat) (bs : List Byte) :
    (storeBuf s b i bs).resetIn = s.resetIn := rfl
@[simp] theorem storeBuf_host (s : State) (b : Buffer) (i : Nat) (bs : List Byte) :
    (storeBuf s b i bs).host = s.host := rfl

@[simp] theorem advance_cfg (s : State) : (advance s).cfg = s.cfg := rfl
@[simp] theorem advance_err (s : State) : (advance s).err = s.err := rfl
@[simp] theorem advance_n0inv (s : State) : (advance s).n0inv = s.n0inv := rfl
@[simp] theorem advance_exp (s : State) : (advance s).exp = s.exp := rfl
@[simp] theorem advance_msw (s : State) : (advance s).msw = s.msw := rfl
@[simp] theorem advance_recValid (s : State) : (advance s).recValid = s.recValid := rfl
@[simp] theorem advance_beLen (s : State) : (advance s).beLen = s.beLen := rfl
@[simp] theorem advance_mem (s : State) : (advance s).mem = s.mem := rfl
@[simp] theorem advance_resetIn (s : State) : (advance s).resetIn = s.resetIn := rfl
@[simp] theorem advance_host (s : State) : (advance s).host = { s.host with line := s.host.line + 1 } := rfl

@[simp] theorem goto_cfg (n : Nat) (s : State) : (goto n s).cfg = s.cfg := rfl
@[simp] theorem goto_err (n : Nat) (s : State) : (goto n s).err = s.err := rfl
@[simp] theorem goto_n0inv (n : Nat) (s : State) : (goto n s).n0inv = s.n0inv := rfl
@[simp] theorem goto_exp (n : Nat) (s : State) : (goto n s).exp = s.exp := rfl
@[simp] theorem goto_msw (n : Nat) (s : State) : (goto n s).msw = s.msw := rfl
@[simp] theorem goto_recValid (n : Nat) (s : State) : (goto n s).recValid = s.recValid := rfl
@[simp] theorem goto_beLen (n : Nat) (s : State) : (goto n s).beLen = s.beLen := rfl
@[simp] theorem goto_mem (n : Nat) (s : State) : (goto n s).mem = s.mem := rfl
@[simp] theorem goto_resetIn (n : Nat) (s : State) : (goto n s).resetIn = s.resetIn := rfl
@[simp] theorem goto_host (n : Nat) (s : State) : (goto n s).host = { s.host with line := n } := rfl

@[simp] theorem setVar_cfg (k : Fin 8) (v : Word) (s : State) : (setVar k v s).cfg = s.cfg := rfl
@[simp] theorem setVar_err (k : Fin 8) (v : Word) (s : State) : (setVar k v s).err = s.err := rfl
@[simp] theorem setVar_n0inv (k : Fin 8) (v : Word) (s : State) : (setVar k v s).n0inv = s.n0inv := rfl
@[simp] theorem setVar_exp (k : Fin 8) (v : Word) (s : State) : (setVar k v s).exp = s.exp := rfl
@[simp] theorem setVar_msw (k : Fin 8) (v : Word) (s : State) : (setVar k v s).msw = s.msw := rfl
@[simp] theorem setVar_recValid (k : Fin 8) (v : Word) (s : State) : (setVar k v s).recValid = s.recValid := rfl
@[simp] theorem setVar_beLen (k : Fin 8) (v : Word) (s : State) : (setVar k v s).beLen = s.beLen := rfl
@[simp] theorem setVar_mem (k : Fin 8) (v : Word) (s : State) : (setVar k v s).mem = s.mem := rfl
@[simp] theorem setVar_resetIn (k : Fin 8) (v : Word) (s : State) : (setVar k v s).resetIn = s.resetIn := rfl
@[simp] theorem setVar_host (k : Fin 8) (v : Word) (s : State) : (setVar k v s).host = { s.host with vars := s.host.vars.set k v } := rfl

@[simp] theorem blockReset_cfg (s : State) : (blockReset s).cfg = s.cfg := rfl
@[simp] theorem blockReset_err (s : State) : (blockReset s).err = 0 := rfl
@[simp] theorem blockReset_n0inv (s : State) : (blockReset s).n0inv = 0 := rfl
@[simp] theorem blockReset_exp (s : State) : (blockReset s).exp = 0 := rfl
@[simp] theorem blockReset_msw (s : State) : (blockReset s).msw = 0 := rfl
@[simp] theorem blockReset_recValid (s : State) : (blockReset s).recValid = 0 := rfl
@[simp] theorem blockReset_beLen (s : State) : (blockReset s).beLen = 0 := rfl
@[simp] theorem blockReset_mem (s : State) : (blockReset s).mem = [] := rfl
@[simp] theorem blockReset_resetIn (s : State) : (blockReset s).resetIn = s.resetIn := rfl
@[simp] theorem blockReset_host (s : State) : (blockReset s).host = s.host := rfl

@[simp] theorem loadBuf_setErr (s : State) (v : BitVec 4) (b : Buffer) (i n : Nat) :
    loadBuf (s.setErr v) b i n = loadBuf s b i n := rfl
@[simp] theorem loadBuf_setN0inv (s : State) (v : Word) (b : Buffer) (i n : Nat) :
    loadBuf (s.setN0inv v) b i n = loadBuf s b i n := rfl
@[simp] theorem loadBuf_setExp (s : State) (v : Word) (b : Buffer) (i n : Nat) :
    loadBuf (s.setExp v) b i n = loadBuf s b i n := rfl
@[simp] theorem loadBuf_setMsw (s : State) (v : Word) (b : Buffer) (i n : Nat) :
    loadBuf (s.setMsw v) b i n = loadBuf s b i n := rfl
@[simp] theorem loadBuf_setRecValid (s : State) (v : Word) (b : Buffer) (i n : Nat) :
    loadBuf (s.setRecValid v) b i n = loadBuf s b i n := rfl
@[simp] theorem loadBuf_setBeLen (s : State) (v : Word) (b : Buffer) (i n : Nat) :
    loadBuf (s.setBeLen v) b i n = loadBuf s b i n := rfl
@[simp] theorem loadBuf_setResetIn (s : State) (v : List Bool) (b : Buffer) (i n : Nat) :
    loadBuf (s.setResetIn v) b i n = loadBuf s b i n := rfl
@[simp] theorem loadBuf_setHost (s : State) (v : HostAgent) (b : Buffer) (i n : Nat) :
    loadBuf (s.setHost v) b i n = loadBuf s b i n := rfl
@[simp] theorem loadBuf_advance (s : State) (b : Buffer) (i n : Nat) :
    loadBuf (advance s) b i n = loadBuf s b i n := rfl

end Sys2Proof.Machine
end

