-- ==== Sys2Proof/Laws/Memory.lean ====
section
/-! SUPPORT. Memory: what a read gives after a write, that every write keeps the canonical form, and that a canonical
memory is determined by what its bytes read as. -/

namespace Sys2Proof.Machine

namespace Memory

theorem read?_append (m₁ m₂ : Memory) (a : Nat) : read? (m₁ ++ m₂) a = (read? m₁ a).or (read? m₂ a) := by
  induction m₁ with
  | nil => simp [read?]
  | cons c m ih =>
    obtain ⟨k, b⟩ := c
    by_cases h : k = a <;> simp [read?, h, ih]

theorem read?_filter (m : Memory) (p : Nat → Bool) (a : Nat) :
    read? (m.filter (fun c => p c.1)) a = if p a then read? m a else none := by
  induction m with
  | nil => simp [read?]
  | cons c m ih =>
    obtain ⟨k, b⟩ := c
    by_cases hp : p k <;> by_cases hk : k = a <;> simp_all [read?]

theorem read?_cellsAt (k : Nat) (bs : List Byte) (a : Nat) :
    read? (cellsAt k bs) a = if k ≤ a then bs[a - k]? else none := by
  induction bs generalizing k with
  | nil => simp [cellsAt, read?]
  | cons b bs ih =>
    simp only [cellsAt, read?, ih]
    by_cases hk : k = a
    · subst hk
      simp
    · by_cases hlt : k ≤ a
      · have h1 : k + 1 ≤ a := by omega
        have h2 : a - k = a - (k + 1) + 1 := by omega
        simp [hk, hlt, h1, h2]
      · have h1 : ¬ k + 1 ≤ a := by omega
        simp [hk, hlt, h1]

/-- Everything a write does to what memory reads as. -/
theorem read?_write (m : Memory) (k : Nat) (bs : List Byte) (a : Nat) :
    read? (write m k bs) a = if k ≤ a ∧ a < k + bs.length then bs[a - k]? else read? m a := by
  have hlow := read?_filter m (fun x => decide (x < k)) a
  have hhigh := read?_filter m (fun x => decide (k + bs.length ≤ x)) a
  rw [write, read?_append, read?_append, hlow, hhigh, read?_cellsAt]
  by_cases h1 : a < k
  · have h2 : ¬ k ≤ a := by omega
    have h3 : ¬ k + bs.length ≤ a := by omega
    simp [h1, h2, h3]
  · have h2 : k ≤ a := by omega
    by_cases h3 : k + bs.length ≤ a
    · have h4 : bs[a - k]? = none := List.getElem?_eq_none (by omega)
      have h5 : ¬ a < k + bs.length := by omega
      simp [h1, h2, h3, h4, h5]
    · have h5 : a < k + bs.length := by omega
      have h6 : a - k < bs.length := by omega
      simp [h1, h2, h5, h3]

theorem read?_write_outside {m : Memory} {k : Nat} {bs : List Byte} {a : Nat}
    (h : ¬ (k ≤ a ∧ a < k + bs.length)) : read? (write m k bs) a = read? m a := by
  rw [read?_write, if_neg h]

/-! The canonical form. -/

theorem wf_iff_pairwise (m : Memory) : wf m = true ↔ m.Pairwise (fun c d => c.1 < d.1) := by
  induction m with
  | nil => simp [wf]
  | cons c m ih =>
    cases m with
    | nil => simp [wf]
    | cons d m =>
      simp only [wf, Bool.and_eq_true, decide_eq_true_eq, ih]
      constructor
      · rintro ⟨h, hp⟩
        refine List.pairwise_cons.mpr ⟨?_, hp⟩
        intro x hx
        rcases List.mem_cons.mp hx with rfl | hx
        · exact h
        · exact h.trans ((List.pairwise_cons.mp hp).1 x hx)
      · intro hp
        obtain ⟨h, hp⟩ := List.pairwise_cons.mp hp
        exact ⟨h d (by simp), hp⟩

@[simp] theorem wf_nil : wf [] = true := rfl

theorem mem_cellsAt {k : Nat} {bs : List Byte} {c : Host.Cell} (h : c ∈ cellsAt k bs) :
    k ≤ c.1 ∧ c.1 < k + bs.length := by
  induction bs generalizing k with
  | nil => simp [cellsAt] at h
  | cons b bs ih =>
    rcases List.mem_cons.mp h with rfl | h
    · simp
    · have := ih h
      simp only [List.length_cons]
      omega

theorem pairwise_cellsAt (k : Nat) (bs : List Byte) : (cellsAt k bs).Pairwise (fun c d => c.1 < d.1) := by
  induction bs generalizing k with
  | nil => simp [cellsAt]
  | cons b bs ih =>
    refine List.pairwise_cons.mpr ⟨?_, ih (k + 1)⟩
    intro c hc
    have := mem_cellsAt hc
    omega

/-- A write keeps the canonical form. -/
theorem wf_write {m : Memory} (h : wf m = true) (k : Nat) (bs : List Byte) : wf (write m k bs) = true := by
  rw [wf_iff_pairwise] at h ⊢
  rw [write, List.pairwise_append, List.pairwise_append]
  refine ⟨⟨h.filter _, pairwise_cellsAt k bs, ?_⟩, h.filter _, ?_⟩
  · intro c hc d hd
    have h1 := of_decide_eq_true (List.mem_filter.mp hc).2
    have h2 := mem_cellsAt hd
    omega
  · intro c hc d hd
    have h3 := of_decide_eq_true (List.mem_filter.mp hd).2
    rcases List.mem_append.mp hc with hc | hc
    · have h1 := of_decide_eq_true (List.mem_filter.mp hc).2
      omega
    · have h2 := mem_cellsAt hc
      omega

/-- Every cell of a written memory is an old cell or one of the new bytes. -/
theorem mem_write {m : Memory} {k : Nat} {bs : List Byte} {c : Host.Cell} (h : c ∈ write m k bs) :
    c ∈ m ∨ (k ≤ c.1 ∧ c.1 < k + bs.length) := by
  rcases List.mem_append.mp h with h | h
  · rcases List.mem_append.mp h with h | h
    · exact .inl (List.mem_filter.mp h).1
    · exact .inr (mem_cellsAt h)
  · exact .inl (List.mem_filter.mp h).1

theorem read?_eq_none_of_lt {m : Memory} {a : Nat} (h : ∀ c ∈ m, a < c.1) : read? m a = none := by
  induction m with
  | nil => rfl
  | cons c m ih =>
    obtain ⟨k, b⟩ := c
    have h1 : ¬ k = a := by
      have := h (k, b) (by simp)
      simp only at this
      omega
    simp only [read?, h1, if_false]
    exact ih (fun c hc => h c (by simp [hc]))

/-- Two canonical memories that read alike are one list. -/
theorem eq_of_read? {m₁ m₂ : Memory} (h₁ : wf m₁ = true) (h₂ : wf m₂ = true)
    (h : ∀ a, read? m₁ a = read? m₂ a) : m₁ = m₂ := by
  rw [wf_iff_pairwise] at h₁ h₂
  induction m₁ generalizing m₂ with
  | nil =>
    cases m₂ with
    | nil => rfl
    | cons d m₂ => simpa [read?] using h d.1
  | cons c m₁ ih =>
    cases m₂ with
    | nil => simpa [read?] using h c.1
    | cons d m₂ =>
      obtain ⟨k, b⟩ := c
      obtain ⟨l, e⟩ := d
      obtain ⟨hc, hp₁⟩ := List.pairwise_cons.mp h₁
      obtain ⟨hd, hp₂⟩ := List.pairwise_cons.mp h₂
      have hkl : k = l := by
        rcases Nat.lt_trichotomy k l with hlt | rfl | hlt
        · have h2 : read? ((l, e) :: m₂) k = none := read?_eq_none_of_lt (by
            intro x hx
            rcases List.mem_cons.mp hx with rfl | hx
            · exact hlt
            · exact hlt.trans (hd x hx))
          have := h k
          rw [h2] at this
          simp [read?] at this
        · rfl
        · have h2 : read? ((k, b) :: m₁) l = none := read?_eq_none_of_lt (by
            intro x hx
            rcases List.mem_cons.mp hx with rfl | hx
            · exact hlt
            · exact hlt.trans (hc x hx))
          have := h l
          rw [h2] at this
          simp [read?] at this
      subst hkl
      have hbe : b = e := by simpa [read?] using h k
      subst hbe
      have htail : m₁ = m₂ := ih hp₁ hp₂ (fun a => by
        by_cases hak : k = a
        · subst hak
          rw [read?_eq_none_of_lt (fun x hx => hc x hx), read?_eq_none_of_lt (fun x hx => hd x hx)]
        · simpa [read?, hak] using h a)
      rw [htail]

/-! Reading a range of bytes. -/

/-- What it means that a range reads as `bs`. -/
theorem readBytes_eq_ok_iff {m : Memory} {a n : Nat} {bs : List Byte} :
    readBytes m a n = .ok bs ↔ bs.length = n ∧ ∀ i, i < n → read? m (a + i) = bs[i]? := by
  induction n generalizing a bs with
  | zero =>
    constructor
    · intro h
      cases h
      simp
    · rintro ⟨h, -⟩
      rw [List.length_eq_zero_iff.mp h]
      rfl
  | succ n ih =>
    simp only [readBytes]
    constructor
    · intro h
      split at h
      · cases h
      · rename_i b hb
        split at h
        · rename_i cs hcs
          cases h
          obtain ⟨hl, hr⟩ := ih.mp hcs
          refine ⟨by simp [hl], ?_⟩
          intro i hi
          cases i with
          | zero => simpa using hb
          | succ i =>
            have := hr i (by omega)
            rw [show a + (i + 1) = a + 1 + i by omega, this]
            simp
        · cases h
    · rintro ⟨hl, hr⟩
      cases bs with
      | nil => simp at hl
      | cons b bs =>
        have h0 := hr 0 (by omega)
        simp only [Nat.add_zero, List.getElem?_cons_zero] at h0
        have hrest : readBytes m (a + 1) n = .ok bs := ih.mpr ⟨by simpa using hl, fun i hi => by
          have := hr (i + 1) (by omega)
          rw [show a + 1 + i = a + (i + 1) by omega, this]
          simp⟩
        rw [h0, hrest]

theorem readBytes_length {m : Memory} {a n : Nat} {bs : List Byte} (h : readBytes m a n = .ok bs) :
    bs.length = n := (readBytes_eq_ok_iff.mp h).1

/-- A range that cannot be read names a byte of it that was never written. -/
theorem readBytes_error {m : Memory} {a n : Nat} {f : Fault} (h : readBytes m a n = .error f) :
    ∃ i, i < n ∧ f = .unwrittenByte (a + i) ∧ read? m (a + i) = none := by
  induction n generalizing a with
  | zero => cases h
  | succ n ih =>
    simp only [readBytes] at h
    split at h
    · rename_i hb
      cases h
      exact ⟨0, by omega, rfl, hb⟩
    · split at h
      · cases h
      · rename_i e he
        cases h
        obtain ⟨i, hi, hf, hr⟩ := ih he
        refine ⟨i + 1, by omega, ?_, ?_⟩
        · rw [hf, show a + 1 + i = a + (i + 1) by omega]
        · rw [← hr, show a + 1 + i = a + (i + 1) by omega]

/-- A range whose bytes are all written can be read. -/
theorem readBytes_isOk {m : Memory} {a n : Nat} (h : ∀ i, i < n → (read? m (a + i)).isSome) :
    ∃ bs, readBytes m a n = .ok bs := by
  cases hr : readBytes m a n with
  | ok bs => exact ⟨bs, rfl⟩
  | error f =>
    obtain ⟨i, hi, -, hn⟩ := readBytes_error hr
    simpa [hn] using h i hi

/-- Reading depends on the bytes of the range alone. -/
theorem readBytes_congr {m₁ m₂ : Memory} {a n : Nat} (h : ∀ i, i < n → read? m₁ (a + i) = read? m₂ (a + i)) :
    readBytes m₁ a n = readBytes m₂ a n := by
  induction n generalizing a with
  | zero => rfl
  | succ n ih =>
    have h0 := h 0 (by omega)
    have hrest : readBytes m₁ (a + 1) n = readBytes m₂ (a + 1) n := ih (fun i hi => by
      have := h (i + 1) (by omega)
      rwa [show a + 1 + i = a + (i + 1) by omega])
    simp only [Nat.add_zero] at h0
    simp only [readBytes, h0, hrest]

/-- A write is read back. -/
theorem readBytes_write_same (m : Memory) (a : Nat) {n : Nat} {bs : List Byte} (hn : bs.length = n) :
    readBytes (write m a bs) a n = .ok bs := by
  refine readBytes_eq_ok_iff.mpr ⟨hn, fun i hi => ?_⟩
  have h1 : a ≤ a + i ∧ a + i < a + bs.length := by omega
  have h2 : a + i - a = i := by omega
  rw [read?_write, if_pos h1, h2]

/-- A write leaves a range that lies apart from it as it was. -/
theorem readBytes_write_apart (m : Memory) {a n k : Nat} {bs : List Byte}
    (h : a + n ≤ k ∨ k + bs.length ≤ a) : readBytes (write m k bs) a n = readBytes m a n :=
  readBytes_congr (fun i hi => read?_write_outside (by omega))

/-- The start of a range that can be read. -/
theorem readBytes_take {m : Memory} {a n : Nat} {bs : List Byte} (h : readBytes m a n = .ok bs) {k : Nat}
    (hk : k ≤ n) : readBytes m a k = .ok (bs.take k) := by
  obtain ⟨hl, hr⟩ := readBytes_eq_ok_iff.mp h
  refine readBytes_eq_ok_iff.mpr ⟨by simp; omega, fun i hi => ?_⟩
  rw [hr i (by omega), List.getElem?_take_of_lt hi]

/-- A part of a range that can be read. -/
theorem readBytes_slice {m : Memory} {a n : Nat} {bs : List Byte} (h : readBytes m a n = .ok bs) {i k : Nat}
    (hk : i + k ≤ n) : readBytes m (a + i) k = .ok (slice bs i k) := by
  obtain ⟨hl, hr⟩ := readBytes_eq_ok_iff.mp h
  refine readBytes_eq_ok_iff.mpr ⟨slice_length (by omega), fun j hj => ?_⟩
  rw [show a + i + j = a + (i + j) by omega, hr (i + j) (by omega), slice, List.getElem?_take_of_lt hj,
    List.getElem?_drop]

/-- Writing what a range already reads as changes nothing, in a canonical memory. -/
theorem write_readBytes {m : Memory} (hm : wf m = true) {a n : Nat} {bs : List Byte}
    (h : readBytes m a n = .ok bs) : write m a bs = m := by
  obtain ⟨hl, hr⟩ := readBytes_eq_ok_iff.mp h
  refine eq_of_read? (wf_write hm a bs) hm (fun x => ?_)
  rw [read?_write]
  split
  · rename_i hx
    have := hr (x - a) (by omega)
    rw [show a + (x - a) = x by omega] at this
    exact this.symm
  · rfl

/-- Writes to ranges that lie apart commute, in a canonical memory. -/
theorem write_comm {m : Memory} (hm : wf m = true) {a k : Nat} {bs cs : List Byte}
    (h : a + bs.length ≤ k ∨ k + cs.length ≤ a) :
    write (write m a bs) k cs = write (write m k cs) a bs := by
  refine eq_of_read? (wf_write (wf_write hm _ _) _ _) (wf_write (wf_write hm _ _) _ _) (fun x => ?_)
  simp only [read?_write]
  by_cases h1 : k ≤ x ∧ x < k + cs.length <;> by_cases h2 : a ≤ x ∧ x < a + bs.length <;> simp [h1, h2]
  omega

/-- A second write of the same range replaces the first. -/
theorem write_write {m : Memory} (hm : wf m = true) (a : Nat) {bs cs : List Byte} (h : bs.length = cs.length) :
    write (write m a bs) a cs = write m a cs := by
  refine eq_of_read? (wf_write (wf_write hm _ _) _ _) (wf_write hm _ _) (fun x => ?_)
  simp only [read?_write]
  by_cases h1 : a ≤ x ∧ x < a + cs.length <;> simp [h1, h]

end Memory

end Sys2Proof.Machine
end

