-- ==== Sys2Proof/Laws/Meanings.lean ====
section
/-! SUPPORT. One inversion lemma per shared operation and per command: everything it can answer. Later proofs cite
these and never unfold a meaning. -/

namespace Sys2Proof.Machine

@[simp] theorem raise_eq (e : ErrCode) (s : State) : raise e s = .next (s.setErr (errCodeBits e)) := rfl

@[simp] theorem succeed_eq (s : State) : succeed s = .next (s.setErr 0) := rfl

@[simp] theorem withBytes_ok (bs : List Byte) (k : List Byte → Result) : withBytes (.ok bs) k = k bs := rfl

@[simp] theorem withBytes_error (f : Fault) (k : List Byte → Result) : withBytes (.error f) k = .fault f := rfl

theorem loadBuf_length {s : State} {b : Buffer} {i n : Nat} {bs : List Byte} (h : loadBuf s b i n = .ok bs) :
    bs.length = n := Memory.readBytes_length h

/-- The only fault of a buffer read is a byte of it that was never written. -/
theorem loadBuf_error {s : State} {b : Buffer} {i n : Nat} {f : Fault} (h : loadBuf s b i n = .error f) :
    ∃ j, j < n ∧ f = .unwrittenByte (bufBase b + i + j) ∧ s.mem.read? (bufBase b + i + j) = none :=
  Memory.readBytes_error h

/-- A store is read back. -/
theorem loadBuf_storeBuf_same (s : State) (b : Buffer) (i : Nat) {n : Nat} {bs : List Byte} (h : bs.length = n) :
    loadBuf (storeBuf s b i bs) b i n = .ok bs := Memory.readBytes_write_same s.mem (bufBase b + i) h

/-- A store leaves what lies apart from it. -/
theorem loadBuf_storeBuf_apart (s : State) {b c : Buffer} {i j n : Nat} {bs : List Byte}
    (h : bufBase b + i + n ≤ bufBase c + j ∨ bufBase c + j + bs.length ≤ bufBase b + i) :
    loadBuf (storeBuf s c j bs) b i n = loadBuf s b i n := Memory.readBytes_write_apart s.mem h

/-- The low word of the modulus is the start of N_BUF. -/
theorem loadBuf_low {s : State} {n : List Byte} (hw : 4 ≤ s.cfg.width)
    (h : loadBuf s .nBuf 0 s.cfg.width = .ok n) : loadBuf s .nBuf 0 4 = .ok (n.take 4) :=
  Memory.readBytes_take h hw

/-- The low word of a byte string decides its parity and its value modulo 2^32. -/
theorem leValue_take_four (n : List Byte) : leValue n % 2 ^ 32 = leValue (n.take 4) % 2 ^ 32 := by
  by_cases h : n.length ≤ 4
  · rw [List.take_of_length_le h]
  · have hl : (n.take 4).length = 4 := by simp; omega
    conv_lhs => rw [← List.take_append_drop 4 n]
    rw [leValue_append, hl]
    norm_num

/-- LOAD_N: everything it can answer. -/
theorem execLoadN_cases (s : State) :
    (s.cfg.beCap < s.beLen.toNat ∧ execLoadN s = .next (s.setErr 5)) ∨
    (s.beLen.toNat ≤ s.cfg.beCap ∧ ∃ f, loadBuf s .beBuf 0 s.beLen.toNat = .error f ∧ execLoadN s = .fault f) ∨
    (s.beLen.toNat ≤ s.cfg.beCap ∧ ∃ be, loadBuf s .beBuf 0 s.beLen.toNat = .ok be ∧
      ((256 ^ s.cfg.width ≤ beValue be ∧ execLoadN s = .next (s.setErr 2)) ∨
       (beValue be < 256 ^ s.cfg.width ∧
        execLoadN s = .next ((storeBuf s .nBuf 0 (leBytes (beValue be) s.cfg.width)).setErr 0)))) := by
  unfold execLoadN
  by_cases h : s.cfg.beCap < s.beLen.toNat
  · simp [h, errCodeBits]
  · have h' : s.beLen.toNat ≤ s.cfg.beCap := by omega
    cases hl : loadBuf s .beBuf 0 s.beLen.toNat with
    | error f => simp [h, h']
    | ok be =>
      by_cases hv : 256 ^ s.cfg.width ≤ beValue be
      · simp [h, h', hv, errCodeBits]
      · have hv' : beValue be < 256 ^ s.cfg.width := by omega
        simp [h, h', hv, hv', reverseBytes_padBigEndian]

/-- N0INV: everything it can answer. -/
theorem execN0inv_cases (s : State) :
    (∃ f, loadBuf s .nBuf 0 4 = .error f ∧ execN0inv s = .fault f) ∨
    (∃ low, loadBuf s .nBuf 0 4 = .ok low ∧
      ((leValue low % 2 = 0 ∧ execN0inv s = .next (s.setErr 1)) ∨
       (leValue low % 2 = 1 ∧
        execN0inv s = .next ((s.setN0inv (BitVec.ofNat 32 (montN0inv (leValue low)))).setErr 0)))) := by
  unfold execN0inv
  cases hl : loadBuf s .nBuf 0 4 with
  | error f => simp
  | ok low =>
    by_cases hp : leValue low % 2 = 0
    · simp [hp, errCodeBits]
    · have hp' : leValue low % 2 = 1 := by omega
      simp [hp']

/-- RR: everything it can answer. -/
theorem execRr_cases (s : State) :
    (∃ f, loadBuf s .nBuf 0 s.cfg.width = .error f ∧ execRr s = .fault f) ∨
    (∃ n, loadBuf s .nBuf 0 s.cfg.width = .ok n ∧
      ((leValue n = 0 ∧ execRr s = .next (s.setErr 1)) ∨
       (leValue n ≠ 0 ∧
        execRr s =
          .next ((storeBuf s .rrBuf 0 (leBytes (montRr s.cfg.width (leValue n)) s.cfg.width)).setErr 0)))) := by
  unfold execRr
  cases hl : loadBuf s .nBuf 0 s.cfg.width with
  | error f => simp
  | ok n =>
    by_cases hz : leValue n = 0
    · simp [hz, errCodeBits]
    · simp [hz]

/-- ENCODE: everything it can answer. -/
theorem execEncode_cases (s : State) :
    (∃ f, (loadBuf s .nBuf 0 s.cfg.width = .error f ∨
        (∃ n, loadBuf s .nBuf 0 s.cfg.width = .ok n) ∧ loadBuf s .rrBuf 0 s.cfg.width = .error f) ∧
      execEncode s = .fault f) ∨
    (∃ n rr, loadBuf s .nBuf 0 s.cfg.width = .ok n ∧ loadBuf s .rrBuf 0 s.cfg.width = .ok rr ∧
      execEncode s =
        .next (((storeBuf s .recBuf 0 (recordBytes s.msw s.n0inv n rr s.exp)).setRecValid
          (BitVec.ofNat 32 s.cfg.recLen)).setErr 0)) := by
  unfold execEncode
  cases hn : loadBuf s .nBuf 0 s.cfg.width with
  | error f => simp
  | ok n =>
    cases hr : loadBuf s .rrBuf 0 s.cfg.width with
    | error f => simp
    | ok rr => simp

/-- The state DECODE leaves when it has read the record `r` (42_codec.md R153). -/
theorem execDecode_cases (s : State) :
    (s.recValid.toNat < s.cfg.recLen ∧ execDecode s = .next (s.setErr 3)) ∨
    (s.cfg.recLen ≤ s.recValid.toNat ∧ ∃ f, loadBuf s .recBuf 0 s.cfg.recLen = .error f ∧ execDecode s = .fault f) ∨
    (s.cfg.recLen ≤ s.recValid.toNat ∧ ∃ r, loadBuf s .recBuf 0 s.cfg.recLen = .ok r ∧
      execDecode s =
        .next
          (((storeBuf
                (storeBuf
                  ((s.setMsw (BitVec.ofNat 32 (leValue (slice r 0 4)))).setN0inv
                    (BitVec.ofNat 32 (leValue (slice r 4 4))))
                  .nBuf 0 (slice r 8 s.cfg.width))
                .rrBuf 0 (slice r (8 + s.cfg.width) s.cfg.width)).setExp
            (BitVec.ofNat 32 (leValue (slice r (8 + 2 * s.cfg.width) 4)))).setErr 0)) := by
  unfold execDecode
  by_cases h : s.recValid.toNat < s.cfg.recLen
  · simp [h, errCodeBits]
  · have h' : s.cfg.recLen ≤ s.recValid.toNat := by omega
    cases hl : loadBuf s .recBuf 0 s.cfg.recLen with
    | error f => simp [h, h']
    | ok r => simp [h, h']

/-- CONVERT: everything it can answer. -/
theorem execConvert_cases (s : State) :
    (∃ f, loadBuf s .nBuf 0 4 = .error f ∧ execConvert s = .fault f) ∨
    (∃ low, loadBuf s .nBuf 0 4 = .ok low ∧
      ((leValue low % 2 = 0 ∧ execConvert s = .next (s.setErr 1)) ∨
       (leValue low % 2 = 1 ∧
        ((∃ f, loadBuf s .nBuf 0 s.cfg.width = .error f ∧ execConvert s = .fault f) ∨
         (∃ n, loadBuf s .nBuf 0 s.cfg.width = .ok n ∧
           execConvert s =
            .next
              (((storeBuf
                    ((storeBuf (s.setN0inv (BitVec.ofNat 32 (montN0inv (leValue low)))) .rrBuf 0
                      (leBytes (montRr s.cfg.width (leValue n)) s.cfg.width)).setMsw
                      (BitVec.ofNat 32 s.cfg.mswVal))
                    .recBuf 0
                    (recordBytes (BitVec.ofNat 32 s.cfg.mswVal) (BitVec.ofNat 32 (montN0inv (leValue low))) n
                      (leBytes (montRr s.cfg.width (leValue n)) s.cfg.width) s.exp)).setRecValid
                (BitVec.ofNat 32 s.cfg.recLen)).setErr 0)))))) := by
  unfold execConvert
  cases hl : loadBuf s .nBuf 0 4 with
  | error f => simp
  | ok low =>
    by_cases hp : leValue low % 2 = 0
    · simp [hp, errCodeBits]
    · have hp' : leValue low % 2 = 1 := by omega
      cases hn : loadBuf s .nBuf 0 s.cfg.width with
      | error f => simp [hp']
      | ok n => simp [hp']

/-! What each command answers, given what it reads. -/

theorem execLoadN_tooLong {s : State} (h : s.cfg.beCap < s.beLen.toNat) : execLoadN s = .next (s.setErr 5) := by
  rcases execLoadN_cases s with ⟨-, he⟩ | ⟨h', -⟩ | ⟨h', -⟩
  · exact he
  · omega
  · omega

theorem execLoadN_tooWide {s : State} {be : List Byte} (h : s.beLen.toNat ≤ s.cfg.beCap)
    (hb : loadBuf s .beBuf 0 s.beLen.toNat = .ok be) (hv : 256 ^ s.cfg.width ≤ beValue be) :
    execLoadN s = .next (s.setErr 2) := by
  rcases execLoadN_cases s with ⟨h', -⟩ | ⟨-, f, hf, -⟩ | ⟨-, be', hb', ⟨-, he⟩ | ⟨hv', -⟩⟩
  · omega
  · rw [hb] at hf; cases hf
  · exact he
  · rw [hb] at hb'; cases hb'; omega

theorem execLoadN_fits {s : State} {be : List Byte} (h : s.beLen.toNat ≤ s.cfg.beCap)
    (hb : loadBuf s .beBuf 0 s.beLen.toNat = .ok be) (hv : beValue be < 256 ^ s.cfg.width) :
    execLoadN s = .next ((storeBuf s .nBuf 0 (leBytes (beValue be) s.cfg.width)).setErr 0) := by
  rcases execLoadN_cases s with ⟨h', -⟩ | ⟨-, f, hf, -⟩ | ⟨-, be', hb', ⟨hv', -⟩ | ⟨-, he⟩⟩
  · omega
  · rw [hb] at hf; cases hf
  · rw [hb] at hb'; cases hb'; omega
  · rw [hb] at hb'; cases hb'; exact he

theorem execN0inv_even {s : State} {low : List Byte} (h : loadBuf s .nBuf 0 4 = .ok low)
    (hp : leValue low % 2 = 0) : execN0inv s = .next (s.setErr 1) := by
  rcases execN0inv_cases s with ⟨f, hf, -⟩ | ⟨low', h', ⟨-, he⟩ | ⟨hp', -⟩⟩
  · rw [h] at hf; cases hf
  · exact he
  · rw [h] at h'; cases h'; omega

theorem execN0inv_odd {s : State} {low : List Byte} (h : loadBuf s .nBuf 0 4 = .ok low)
    (hp : leValue low % 2 = 1) :
    execN0inv s = .next ((s.setN0inv (BitVec.ofNat 32 (montN0inv (leValue low)))).setErr 0) := by
  rcases execN0inv_cases s with ⟨f, hf, -⟩ | ⟨low', h', ⟨hp', -⟩ | ⟨-, he⟩⟩
  · rw [h] at hf; cases hf
  · rw [h] at h'; cases h'; omega
  · rw [h] at h'; cases h'; exact he

theorem execRr_zero {s : State} {n : List Byte} (h : loadBuf s .nBuf 0 s.cfg.width = .ok n)
    (hz : leValue n = 0) : execRr s = .next (s.setErr 1) := by
  rcases execRr_cases s with ⟨f, hf, -⟩ | ⟨n', h', ⟨-, he⟩ | ⟨hz', -⟩⟩
  · rw [h] at hf; cases hf
  · exact he
  · rw [h] at h'; cases h'; exact absurd hz hz'

theorem execRr_nonzero {s : State} {n : List Byte} (h : loadBuf s .nBuf 0 s.cfg.width = .ok n)
    (hz : leValue n ≠ 0) :
    execRr s =
      .next ((storeBuf s .rrBuf 0 (leBytes (montRr s.cfg.width (leValue n)) s.cfg.width)).setErr 0) := by
  rcases execRr_cases s with ⟨f, hf, -⟩ | ⟨n', h', ⟨hz', -⟩ | ⟨-, he⟩⟩
  · rw [h] at hf; cases hf
  · rw [h] at h'; cases h'; exact absurd hz' hz
  · rw [h] at h'; cases h'; exact he

theorem execEncode_ok {s : State} {n rr : List Byte} (hn : loadBuf s .nBuf 0 s.cfg.width = .ok n)
    (hr : loadBuf s .rrBuf 0 s.cfg.width = .ok rr) :
    execEncode s =
      .next (((storeBuf s .recBuf 0 (recordBytes s.msw s.n0inv n rr s.exp)).setRecValid
        (BitVec.ofNat 32 s.cfg.recLen)).setErr 0) := by
  rcases execEncode_cases s with ⟨f, hf | ⟨-, hf⟩, -⟩ | ⟨n', rr', hn', hr', he⟩
  · rw [hn] at hf; cases hf
  · rw [hr] at hf; cases hf
  · rw [hn] at hn'; cases hn'
    rw [hr] at hr'; cases hr'
    exact he

theorem execDecode_short {s : State} (h : s.recValid.toNat < s.cfg.recLen) :
    execDecode s = .next (s.setErr 3) := by
  rcases execDecode_cases s with ⟨-, he⟩ | ⟨h', -⟩ | ⟨h', -⟩
  · exact he
  · omega
  · omega

theorem execDecode_whole {s : State} {r : List Byte} (h : s.cfg.recLen ≤ s.recValid.toNat)
    (hr : loadBuf s .recBuf 0 s.cfg.recLen = .ok r) :
    execDecode s =
      .next
        (((storeBuf
              (storeBuf
                ((s.setMsw (BitVec.ofNat 32 (leValue (slice r 0 4)))).setN0inv
                  (BitVec.ofNat 32 (leValue (slice r 4 4))))
                .nBuf 0 (slice r 8 s.cfg.width))
              .rrBuf 0 (slice r (8 + s.cfg.width) s.cfg.width)).setExp
          (BitVec.ofNat 32 (leValue (slice r (8 + 2 * s.cfg.width) 4)))).setErr 0) := by
  rcases execDecode_cases s with ⟨h', -⟩ | ⟨-, f, hf, -⟩ | ⟨-, r', hr', he⟩
  · omega
  · rw [hr] at hf; cases hf
  · rw [hr] at hr'; cases hr'; exact he

theorem execConvert_even {s : State} {low : List Byte} (h : loadBuf s .nBuf 0 4 = .ok low)
    (hp : leValue low % 2 = 0) : execConvert s = .next (s.setErr 1) := by
  rcases execConvert_cases s with ⟨f, hf, -⟩ | ⟨low', h', ⟨-, he⟩ | ⟨hp', -⟩⟩
  · rw [h] at hf; cases hf
  · exact he
  · rw [h] at h'; cases h'; omega

theorem execConvert_odd {s : State} {low n : List Byte} (h : loadBuf s .nBuf 0 4 = .ok low)
    (hp : leValue low % 2 = 1) (hn : loadBuf s .nBuf 0 s.cfg.width = .ok n) :
    execConvert s =
      .next
        (((storeBuf
              ((storeBuf (s.setN0inv (BitVec.ofNat 32 (montN0inv (leValue low)))) .rrBuf 0
                (leBytes (montRr s.cfg.width (leValue n)) s.cfg.width)).setMsw (BitVec.ofNat 32 s.cfg.mswVal))
              .recBuf 0
              (recordBytes (BitVec.ofNat 32 s.cfg.mswVal) (BitVec.ofNat 32 (montN0inv (leValue low))) n
                (leBytes (montRr s.cfg.width (leValue n)) s.cfg.width) s.exp)).setRecValid
          (BitVec.ofNat 32 s.cfg.recLen)).setErr 0) := by
  rcases execConvert_cases s with ⟨f, hf, -⟩ | ⟨low', h', ⟨hp', -⟩ | ⟨-, ⟨f, hf, -⟩ | ⟨n', hn', he⟩⟩⟩
  · rw [h] at hf; cases hf
  · rw [h] at h'; cases h'; omega
  · rw [hn] at hf; cases hf
  · rw [h] at h'; cases h'
    rw [hn] at hn'; cases hn'
    exact he

/-! The record in REC_BUF, and the values that fit a word. -/

/-- A whole record in REC_BUF gives each field at its own offset (42_codec.md R150). -/
theorem loadBuf_record_fields {s : State} {msw a exp : Word} {n rr : List Byte} {w : Nat} (hn : n.length = w)
    (hr : rr.length = w) (h : loadBuf s .recBuf 0 (12 + 2 * w) = .ok (recordBytes msw a n rr exp)) :
    loadBuf s .recBuf 0 4 = .ok (leBytes msw.toNat 4) ∧ loadBuf s .recBuf 4 4 = .ok (leBytes a.toNat 4) ∧
      loadBuf s .recBuf 8 w = .ok n ∧ loadBuf s .recBuf (8 + w) w = .ok rr ∧
      loadBuf s .recBuf (8 + 2 * w) 4 = .ok (leBytes exp.toNat 4) := by
  subst hn
  have part : ∀ i k, i + k ≤ 12 + 2 * n.length →
      loadBuf s .recBuf i k = .ok (slice (recordBytes msw a n rr exp) i k) :=
    fun i k hik => Memory.readBytes_slice h hik
  have hrr := recordBytes_rr msw a n rr exp
  have hexp := recordBytes_exp msw a n rr exp
  rw [hr] at hrr
  rw [hr, show 8 + n.length + n.length = 8 + 2 * n.length by omega] at hexp
  refine ⟨?_, ?_, ?_, ?_, ?_⟩
  · rw [part _ _ (by omega), recordBytes_msw]
  · rw [part _ _ (by omega), recordBytes_n0inv]
  · rw [part _ _ (by omega), recordBytes_modulus]
  · rw [part _ _ (by omega), hrr]
  · rw [part _ _ (by omega), hexp]

/-- RECLEN fits its register (10_state.md R26). -/
theorem recLen_word {c : Config} (h : c.Legal) :
    (BitVec.ofNat 32 c.recLen : Word).toNat = 12 + 2 * c.width := by
  obtain ⟨-, -, h⟩ := h
  simp only [BitVec.toNat_ofNat, Config.recLen]
  omega

/-- `W / 4` fits its register (10_state.md R29). -/
theorem mswVal_word {c : Config} (h : c.Legal) :
    (BitVec.ofNat 32 c.mswVal : Word).toNat = c.width / 4 := by
  obtain ⟨-, -, h⟩ := h
  simp only [BitVec.toNat_ofNat, Config.mswVal]
  omega

end Sys2Proof.Machine
end

