-- ==== Sys2Proof/Laws/Bus.lean ====
section
/-! SUPPORT. The window map, the two transactions and the step: everything each can answer. -/

namespace Sys2Proof.Machine

/-! The window map (20_memory.md R61, R62). -/

/-- In a legal build every buffer is whole words and stays in its 4 KiB window (20_memory.md R62). -/
theorem bufSize_legal {c : Config} (h : c.Legal) (b : Buffer) : bufSize c b % 4 = 0 ∧ bufSize c b ≤ 0x1000 := by
  obtain ⟨h1, h2, h3⟩ := h
  cases b <;> simp only [bufSize, Config.recLen, Config.beCap] <;> omega

/-- No offset lies in two buffers. -/
theorem inBuf_unique {c : Config} (h : c.Legal) {b d : Buffer} {off : Nat} (hb : inBuf c b off)
    (hd : inBuf c d off) : b = d := by
  have h1 := bufSize_legal h b
  have h2 := bufSize_legal h d
  obtain ⟨hb1, hb2⟩ := hb
  obtain ⟨hd1, hd2⟩ := hd
  cases b <;> cases d <;> first | rfl | (simp only [bufBase] at *; omega)

/-- A buffer's offset maps to the buffer (20_memory.md R61). -/
theorem windowMap_buf {c : Config} (h : c.Legal) {b : Buffer} {i : Nat} (hi : i < bufSize c b) :
    windowMap c (bufBase b + i) = some (.buf b i) := by
  have h1 := bufSize_legal h b
  have hin : inBuf c b (bufBase b + i) := ⟨by omega, by omega⟩
  have hout : ∀ d, d ≠ b → ¬ inBuf c d (bufBase b + i) := fun d hd hd' => hd (inBuf_unique h hd' hin)
  have hbig : 0x1000 ≤ bufBase b := by cases b <;> simp [bufBase]
  have e : ∀ k, k < 0x1000 → ¬ (bufBase b + i = k) := fun k hk => by omega
  unfold windowMap
  rw [if_neg (e _ (by omega)), if_neg (e _ (by omega)), if_neg (e _ (by omega)), if_neg (e _ (by omega)),
    if_neg (e _ (by omega)), if_neg (e _ (by omega)), if_neg (e _ (by omega)), if_neg (e _ (by omega)),
    if_neg (e _ (by omega))]
  cases b with
  | nBuf => rw [if_pos hin]; simp [bufBase]
  | rrBuf => rw [if_neg (hout .nBuf (by simp)), if_pos hin]; simp [bufBase]
  | recBuf => rw [if_neg (hout .nBuf (by simp)), if_neg (hout .rrBuf (by simp)), if_pos hin]; simp [bufBase]
  | beBuf =>
    rw [if_neg (hout .nBuf (by simp)), if_neg (hout .rrBuf (by simp)), if_neg (hout .recBuf (by simp)), if_pos hin]
    simp [bufBase]

/-- One row of a table written as nested ifs. -/
theorem row_cases {p : Prop} [Decidable p] {x t : Target} {r : Option Target}
    (h : (if p then some x else r) = some t) : (p ∧ t = x) ∨ r = some t := by
  by_cases hp : p
  · rw [if_pos hp] at h
    cases h
    exact .inl ⟨hp, rfl⟩
  · rw [if_neg hp] at h
    exact .inr h

/-- What a mapped offset is: a register's own offset, or a byte of a buffer. -/
theorem windowMap_cases {c : Config} {off : Nat} {t : Target} (h : windowMap c off = some t) :
    (off = 0x000 ∧ t = .cmd) ∨ (off = 0x004 ∧ t = .status) ∨ (off = 0x008 ∧ t = .config) ∨
    (off = 0x00C ∧ t = .recLen) ∨ (off = 0x010 ∧ t = .n0inv) ∨ (off = 0x014 ∧ t = .exp) ∨
    (off = 0x018 ∧ t = .msw) ∨ (off = 0x01C ∧ t = .recValid) ∨ (off = 0x020 ∧ t = .beLen) ∨
    (∃ b, inBuf c b off ∧ t = .buf b (off - bufBase b)) := by
  unfold windowMap at h
  refine (row_cases h).elim (fun h => .inl h) (fun h => ?_)
  refine (row_cases h).elim (fun h => .inr <| .inl h) (fun h => ?_)
  refine (row_cases h).elim (fun h => .inr <| .inr <| .inl h) (fun h => ?_)
  refine (row_cases h).elim (fun h => .inr <| .inr <| .inr <| .inl h) (fun h => ?_)
  refine (row_cases h).elim (fun h => .inr <| .inr <| .inr <| .inr <| .inl h) (fun h => ?_)
  refine (row_cases h).elim (fun h => .inr <| .inr <| .inr <| .inr <| .inr <| .inl h) (fun h => ?_)
  refine (row_cases h).elim (fun h => .inr <| .inr <| .inr <| .inr <| .inr <| .inr <| .inl h) (fun h => ?_)
  refine (row_cases h).elim (fun h => .inr <| .inr <| .inr <| .inr <| .inr <| .inr <| .inr <| .inl h) (fun h => ?_)
  refine (row_cases h).elim (fun h => .inr <| .inr <| .inr <| .inr <| .inr <| .inr <| .inr <| .inr <| .inl h) (fun h => ?_)
  refine (row_cases h).elim (fun h => .inr <| .inr <| .inr <| .inr <| .inr <| .inr <| .inr <| .inr <| .inr ⟨.nBuf, h⟩) (fun h => ?_)
  refine (row_cases h).elim (fun h => .inr <| .inr <| .inr <| .inr <| .inr <| .inr <| .inr <| .inr <| .inr ⟨.rrBuf, h⟩) (fun h => ?_)
  refine (row_cases h).elim (fun h => .inr <| .inr <| .inr <| .inr <| .inr <| .inr <| .inr <| .inr <| .inr ⟨.recBuf, h⟩) (fun h => ?_)
  refine (row_cases h).elim (fun h => .inr <| .inr <| .inr <| .inr <| .inr <| .inr <| .inr <| .inr <| .inr ⟨.beBuf, h⟩) (fun h => ?_)
  cases h

/-- The map's domain (20_memory.md R61): the multiples of 4 it holds are the mapped offsets. -/
theorem windowMap_isSome_iff {c : Config} {off : Nat} (h4 : off % 4 = 0) :
    (windowMap c off).isSome ↔ Mapped c off := by
  constructor
  · intro h
    obtain ⟨t, ht⟩ := Option.isSome_iff_exists.mp h
    rcases windowMap_cases ht with h | h | h | h | h | h | h | h | h | ⟨b, hb, -⟩
    iterate 9 exact .inl ⟨h4, by omega⟩
    cases b
    · exact .inr (.inl hb)
    · exact .inr (.inr (.inl hb))
    · exact .inr (.inr (.inr (.inl hb)))
    · exact .inr (.inr (.inr (.inr hb)))
  · intro h
    have row : ∀ (p : Prop) [Decidable p] (x : Target) (r : Option Target),
        (¬ p → r.isSome) → (if p then some x else r).isSome := by
      intro p _ x r hr
      by_cases hp : p
      · rw [if_pos hp]; rfl
      · rw [if_neg hp]; exact hr hp
    unfold windowMap
    refine row _ _ _ (fun h0 => ?_)
    refine row _ _ _ (fun h1 => ?_)
    refine row _ _ _ (fun h2 => ?_)
    refine row _ _ _ (fun h3 => ?_)
    refine row _ _ _ (fun h4 => ?_)
    refine row _ _ _ (fun h5 => ?_)
    refine row _ _ _ (fun h6 => ?_)
    refine row _ _ _ (fun h7 => ?_)
    refine row _ _ _ (fun h8 => ?_)
    refine row _ _ _ (fun hn => ?_)
    refine row _ _ _ (fun hr => ?_)
    refine row _ _ _ (fun hc => ?_)
    refine row _ _ _ (fun hb => ?_)
    rcases h with h | h | h | h | h
    · omega
    · exact absurd h hn
    · exact absurd h hr
    · exact absurd h hc
    · exact absurd h hb

/-- The nine registers stand at their own offsets (20_memory.md R61). -/
theorem windowMap_registers (c : Config) :
    windowMap c 0x000 = some .cmd ∧ windowMap c 0x004 = some .status ∧ windowMap c 0x008 = some .config ∧
    windowMap c 0x00C = some .recLen ∧ windowMap c 0x010 = some .n0inv ∧ windowMap c 0x014 = some .exp ∧
    windowMap c 0x018 = some .msw ∧ windowMap c 0x01C = some .recValid ∧ windowMap c 0x020 = some .beLen :=
  ⟨rfl, rfl, rfl, rfl, rfl, rfl, rfl, rfl, rfl⟩

/-- Every buffer starts at a word. -/
theorem bufBase_aligned (b : Buffer) : bufBase b % 4 = 0 := by cases b <;> rfl

theorem windowMap_unmapped {c : Config} {off : Nat} (h4 : off % 4 = 0) (h : ¬ Mapped c off) :
    windowMap c off = none := by
  rw [← windowMap_isSome_iff h4] at h
  simpa using h

/-! The transactions (40_host_interface.md R100 to R103). -/

/-- The notation's access is taken exactly at a multiple of 4 (20_memory.md R63). -/
theorem takes_word32 (off : Nat) : (Access.word32 off).takes ↔ off % 4 = 0 :=
  ⟨fun h => h.2.2, fun h => ⟨rfl, rfl, h⟩⟩

/-- A read of a mapped word. -/
theorem transact_read_mapped {s : State} {off : Nat} {g : Target} (h4 : off % 4 = 0)
    (hm : windowMap s.cfg off = some g) :
    transact (.read (Access.word32 off)) s =
      match readTarget s g with
      | .ok v => (s, .data v)
      | .error f => (s, .failed f) := by
  simp only [transact]
  rw [memRead, if_pos ((takes_word32 off).mpr h4), show (Access.word32 off).off = off from rfl, hm] <;> rfl

/-- A read of an unmapped word. -/
theorem transact_read_unmapped {s : State} {off : Nat} (h4 : off % 4 = 0) (hm : ¬ Mapped s.cfg off) :
    transact (.read (Access.word32 off)) s = (s, .failed (.busError off)) := by
  simp only [transact]
  rw [memRead, if_pos ((takes_word32 off).mpr h4), show (Access.word32 off).off = off from rfl,
    windowMap_unmapped h4 hm]

/-- A write of a mapped word. -/
theorem transact_write_mapped {s : State} {off : Nat} {g : Target} (v : Word) (h4 : off % 4 = 0)
    (hm : windowMap s.cfg off = some g) :
    transact (.write (Access.word32 off) v) s =
      match writeTarget v s g with
      | .next t => (t, .done)
      | .fault f => (s, .failed f)
      | .refused r => (s, .refused r) := by
  simp only [transact]
  rw [memWrite, if_pos ((takes_word32 off).mpr h4), show (Access.word32 off).off = off from rfl, hm] <;> rfl

/-- A write of an unmapped word. -/
theorem transact_write_unmapped {s : State} {off : Nat} (v : Word) (h4 : off % 4 = 0) (hm : ¬ Mapped s.cfg off) :
    transact (.write (Access.word32 off) v) s = (s, .failed (.busError off)) := by
  simp only [transact]
  rw [memWrite, if_pos ((takes_word32 off).mpr h4), show (Access.word32 off).off = off from rfl,
    windowMap_unmapped h4 hm]

/-- A whole-word store in one buffer, at a word's offset: the only way memory changes. -/
structure StoresIn (c : Config) (m m' : Memory) : Prop where
  witness : ∃ b a bs, m' = Memory.write m a bs ∧ a % 4 = 0 ∧ bs.length % 4 = 0 ∧ bufBase b ≤ a ∧
    a + bs.length ≤ bufBase b + bufSize c b

/-- A store of a whole buffer. -/
theorem storesIn_buffer {c : Config} (h : c.Legal) (m : Memory) (b : Buffer) {bs : List Byte}
    (hl : bs.length = bufSize c b) : StoresIn c m (Memory.write m (bufBase b + 0) bs) := by
  have := bufSize_legal h b
  refine ⟨b, bufBase b, bs, rfl, ?_, ?_, le_rfl, by omega⟩
  · cases b <;> simp [bufBase]
  · omega

/-- Everything a command can leave: the build, the host and the reset input as they were, an outcome code, and at most
two buffers stored to. -/
theorem exec_effect {i : Instr} {s t : State} (hl : s.cfg.Legal) (h : exec i s = .next t) :
    sameOutside s t ∧ t.err.toNat ≤ 5 ∧
      (t.mem = s.mem ∨ StoresIn s.cfg s.mem t.mem ∨
        ∃ m, StoresIn s.cfg s.mem m ∧ StoresIn s.cfg m t.mem) := by
  have hl' := hl
  obtain ⟨hw4, hwlo, hwhi⟩ := hl'
  cases i with
  | loadN =>
    rcases execLoadN_cases s with ⟨-, he⟩ | ⟨-, f, -, he⟩ | ⟨-, be, -, ⟨-, he⟩ | ⟨-, he⟩⟩ <;>
      (simp only [exec, he] at h; cases h)
    · exact ⟨by simp [sameOutside], by simp, .inl (by simp)⟩
    · exact ⟨by simp [sameOutside], by simp, .inl (by simp)⟩
    · exact ⟨by simp [sameOutside], by simp, .inr (.inl (storesIn_buffer hl s.mem .nBuf (by simp [bufSize])))⟩
  | n0inv =>
    rcases execN0inv_cases s with ⟨f, -, he⟩ | ⟨low, -, ⟨-, he⟩ | ⟨-, he⟩⟩ <;>
      (simp only [exec, he] at h; cases h)
    · exact ⟨by simp [sameOutside], by simp, .inl (by simp)⟩
    · exact ⟨by simp [sameOutside], by simp, .inl (by simp)⟩
  | rr =>
    rcases execRr_cases s with ⟨f, -, he⟩ | ⟨n, -, ⟨-, he⟩ | ⟨-, he⟩⟩ <;>
      (simp only [exec, he] at h; cases h)
    · exact ⟨by simp [sameOutside], by simp, .inl (by simp)⟩
    · exact ⟨by simp [sameOutside], by simp, .inr (.inl (storesIn_buffer hl s.mem .rrBuf (by simp [bufSize])))⟩
  | encode =>
    rcases execEncode_cases s with ⟨f, -, he⟩ | ⟨n, rr, hn, hr, he⟩ <;>
      (simp only [exec, he] at h; cases h)
    have h1 := loadBuf_length hn
    have h2 := loadBuf_length hr
    exact ⟨by simp [sameOutside], by simp, .inr (.inl (storesIn_buffer hl s.mem .recBuf
      (by simp [bufSize, Config.recLen, h1, h2]; omega)))⟩
  | decode =>
    rcases execDecode_cases s with ⟨-, he⟩ | ⟨-, f, -, he⟩ | ⟨-, r, hr, he⟩ <;>
      (simp only [exec, he] at h; cases h)
    · exact ⟨by simp [sameOutside], by simp, .inl (by simp)⟩
    · have h1 := loadBuf_length hr
      simp only [Config.recLen] at h1
      refine ⟨by simp [sameOutside], by simp, .inr (.inr ⟨_, storesIn_buffer hl s.mem .nBuf
        (bs := slice r 8 s.cfg.width) ?_, storesIn_buffer hl _ .rrBuf ?_⟩)⟩
      · exact slice_length (by omega)
      · exact slice_length (by omega)
  | convert =>
    rcases execConvert_cases s with ⟨f, -, he⟩ | ⟨low, -, ⟨-, he⟩ | ⟨-, ⟨f, -, he⟩ | ⟨n, hn, he⟩⟩⟩ <;>
      simp only [exec, he] at h
    · cases h
    · cases h
      exact ⟨by simp [sameOutside], by simp, .inl (by simp)⟩
    · cases h
    · have h1 := loadBuf_length hn
      generalize montN0inv (leValue low) = a at h
      generalize montRr s.cfg.width (leValue n) = r at h
      cases h
      refine ⟨by simp [sameOutside], by simp, .inr (.inr ⟨_, storesIn_buffer hl s.mem .rrBuf
        (bs := leBytes r s.cfg.width) (by simp [bufSize]), storesIn_buffer hl _ .recBuf ?_⟩)⟩
      simp [bufSize, Config.recLen, h1]
      omega

/-- A command never refuses, and its only fault is a byte it reads that was never written. -/
theorem exec_stops {i : Instr} {s : State} :
    (∀ r, exec i s ≠ .refused r) ∧
      ∀ f, exec i s = .fault f → ∃ off, f = .unwrittenByte off ∧ s.mem.read? off = none := by
  cases i with
  | loadN =>
    rcases execLoadN_cases s with ⟨-, he⟩ | ⟨-, f, hf, he⟩ | ⟨-, be, -, ⟨-, he⟩ | ⟨-, he⟩⟩ <;>
      simp only [exec, he] <;> simp
    obtain ⟨j, -, rfl, hn⟩ := loadBuf_error hf
    exact ⟨_, rfl, hn⟩
  | n0inv =>
    rcases execN0inv_cases s with ⟨f, hf, he⟩ | ⟨low, -, ⟨-, he⟩ | ⟨-, he⟩⟩ <;>
      simp only [exec, he] <;> simp
    obtain ⟨j, -, rfl, hn⟩ := loadBuf_error hf
    exact ⟨_, rfl, hn⟩
  | rr =>
    rcases execRr_cases s with ⟨f, hf, he⟩ | ⟨n, -, ⟨-, he⟩ | ⟨-, he⟩⟩ <;>
      simp only [exec, he] <;> simp
    obtain ⟨j, -, rfl, hn⟩ := loadBuf_error hf
    exact ⟨_, rfl, hn⟩
  | encode =>
    rcases execEncode_cases s with ⟨f, hf | ⟨-, hf⟩, he⟩ | ⟨n, rr, -, -, he⟩ <;>
      simp only [exec, he] <;> simp
    all_goals
      obtain ⟨j, -, rfl, hn⟩ := loadBuf_error hf
      exact ⟨_, rfl, hn⟩
  | decode =>
    rcases execDecode_cases s with ⟨-, he⟩ | ⟨-, f, hf, he⟩ | ⟨-, r, -, he⟩ <;>
      simp only [exec, he] <;> simp
    obtain ⟨j, -, rfl, hn⟩ := loadBuf_error hf
    exact ⟨_, rfl, hn⟩
  | convert =>
    rcases execConvert_cases s with ⟨f, hf, he⟩ | ⟨low, -, ⟨-, he⟩ | ⟨-, ⟨f, hf, he⟩ | ⟨n, -, he⟩⟩⟩ <;>
      simp only [exec, he] <;> simp
    all_goals
      obtain ⟨j, -, rfl, hn⟩ := loadBuf_error hf
      exact ⟨_, rfl, hn⟩

/-- Everything a completed bus write can leave. -/
theorem memWrite_cases {a : Access} {v : Word} {s t : State} (h : memWrite a v s = .next t) :
    a.takes ∧
      ((a.off = 0x000 ∧ issueCommand v s = .next t) ∨ t = s ∨ (a.off = 0x010 ∧ t = s.setN0inv v) ∨
        (a.off = 0x014 ∧ t = s.setExp v) ∨ (a.off = 0x018 ∧ t = s.setMsw v) ∨
        (a.off = 0x01C ∧ t = s.setRecValid v) ∨ (a.off = 0x020 ∧ t = s.setBeLen v) ∨
        (∃ b, inBuf s.cfg b a.off ∧ t = storeBuf s b (a.off - bufBase b) (leBytes v.toNat 4))) := by
  unfold memWrite at h
  split_ifs at h with ht
  refine ⟨ht, ?_⟩
  cases hm : windowMap s.cfg a.off with
  | none => rw [hm] at h; cases h
  | some g =>
    rw [hm] at h
    rcases windowMap_cases hm with ⟨ho, rfl⟩ | ⟨ho, rfl⟩ | ⟨ho, rfl⟩ | ⟨ho, rfl⟩ | ⟨ho, rfl⟩ | ⟨ho, rfl⟩ |
      ⟨ho, rfl⟩ | ⟨ho, rfl⟩ | ⟨ho, rfl⟩ | ⟨b, hb, rfl⟩
    · exact .inl ⟨ho, h⟩
    all_goals cases h
    · exact .inr (.inl rfl)
    · exact .inr (.inl rfl)
    · exact .inr (.inl rfl)
    · exact .inr (.inr (.inl ⟨ho, rfl⟩))
    · exact .inr (.inr (.inr (.inl ⟨ho, rfl⟩)))
    · exact .inr (.inr (.inr (.inr (.inl ⟨ho, rfl⟩))))
    · exact .inr (.inr (.inr (.inr (.inr (.inl ⟨ho, rfl⟩)))))
    · exact .inr (.inr (.inr (.inr (.inr (.inr (.inl ⟨ho, rfl⟩))))))
    · exact .inr (.inr (.inr (.inr (.inr (.inr (.inr ⟨b, hb, rfl⟩))))))

/-- Command issue: the illegal word's outcome, or the command's. -/
theorem issueCommand_cases (v : Word) (s : State) :
    (issueCommand v s = .next (s.setErr 4)) ∨ ∃ i, decode v = .ok i ∧ issueCommand v s = exec i s := by
  unfold issueCommand
  cases decode v with
  | error e => exact .inl rfl
  | ok i => exact .inr ⟨i, rfl, rfl⟩

/-- Everything a completed bus write does, as one effect. -/
theorem memWrite_effect {a : Access} {v : Word} {s t : State} (hl : s.cfg.Legal) (he : s.err.toNat ≤ 5)
    (h : memWrite a v s = .next t) :
    sameOutside s t ∧ t.err.toNat ≤ 5 ∧
      (t.mem = s.mem ∨ StoresIn s.cfg s.mem t.mem ∨
        ∃ m, StoresIn s.cfg s.mem m ∧ StoresIn s.cfg m t.mem) := by
  obtain ⟨⟨-, -, h4⟩, h | rfl | ⟨-, rfl⟩ | ⟨-, rfl⟩ | ⟨-, rfl⟩ | ⟨-, rfl⟩ | ⟨-, rfl⟩ | ⟨b, hb, rfl⟩⟩ :=
    memWrite_cases h
  · rcases issueCommand_cases v s with hi | ⟨i, -, hi⟩
    · rw [hi] at h
      cases h.2
      exact ⟨⟨rfl, rfl, rfl⟩, by simp, .inl rfl⟩
    · exact exec_effect hl (hi ▸ h.2)
  · exact ⟨⟨rfl, rfl, rfl⟩, he, .inl rfl⟩
  · exact ⟨⟨rfl, rfl, rfl⟩, he, .inl rfl⟩
  · exact ⟨⟨rfl, rfl, rfl⟩, he, .inl rfl⟩
  · exact ⟨⟨rfl, rfl, rfl⟩, he, .inl rfl⟩
  · exact ⟨⟨rfl, rfl, rfl⟩, he, .inl rfl⟩
  · exact ⟨⟨rfl, rfl, rfl⟩, he, .inl rfl⟩
  · obtain ⟨hb1, hb2⟩ := hb
    have hsz := bufSize_legal hl b
    have hbase : bufBase b % 4 = 0 := by cases b <;> simp [bufBase]
    refine ⟨⟨rfl, rfl, rfl⟩, he, .inr (.inl ⟨b, a.off, leBytes v.toNat 4, ?_, h4, by simp, hb1, ?_⟩)⟩
    · rw [storeBuf_mem, show bufBase b + (a.off - bufBase b) = a.off by omega]
    · simp only [leBytes_length]
      omega

/-! The step (40_host_interface.md R108). -/

/-- Everything a host step can answer when it goes on: the block is as it was and only the host moved, or the line was
a bus write inside the window and the block took it. -/
theorem hostStep_cases {s t : State} (h : hostStep s = .next t) :
    (∃ g, t = s.setHost g) ∨
      ∃ a v o s', s.host.prog[s.host.line]? = some (.wr a v) ∧
        windowOffset s.cfg (s.cfg.base + a.off) = some o ∧ memWrite { a with off := o } v s = .next s' ∧
        t = advance s' := by
  unfold hostStep at h
  cases hp : s.host.prog[s.host.line]? with
  | none => rw [hp] at h; cases h; exact .inl ⟨s.host, rfl⟩
  | some x =>
    rw [hp] at h
    cases x with
    | wr a v =>
      right
      simp only [runLine, hostWrite, onBus] at h
      cases ho : windowOffset s.cfg (s.cfg.base + a.off) with
      | none => rw [ho] at h; cases h
      | some o =>
        simp only [ho, transact] at h
        cases hm : memWrite { a with off := o } v s with
        | next s' =>
          rw [hm] at h
          cases h
          exact ⟨a, v, o, s', rfl, ho, hm, rfl⟩
        | fault f => rw [hm] at h; cases h
        | refused r => rw [hm] at h; cases h
    | rd a k =>
      left
      simp only [runLine, hostRead, onBus] at h
      cases ho : windowOffset s.cfg (s.cfg.base + a.off) with
      | none => rw [ho] at h; cases h
      | some o =>
        simp only [ho, transact] at h
        cases hm : memRead { a with off := o } s with
        | ok v => rw [hm] at h; cases h; exact ⟨_, rfl⟩
        | error f => rw [hm] at h; cases h
    | beq k imm l =>
      left
      simp only [runLine, hostBranch] at h
      split at h
      · split at h <;> cases h
        exact ⟨_, rfl⟩
      · cases h; exact ⟨_, rfl⟩
    | bne k imm l =>
      left
      simp only [runLine, hostBranch] at h
      split at h
      · split at h <;> cases h
        exact ⟨_, rfl⟩
      · cases h; exact ⟨_, rfl⟩
    | label l => cases h; exact .inl ⟨_, rfl⟩
    | halt => cases h; exact .inl ⟨s.host, rfl⟩

/-- Everything a step can answer when it goes on: the build is legal, and either reset is asserted or the host runs
its line. -/
theorem step_cases {s t : State} (h : step s = .next t) :
    s.cfg.Legal ∧
      ((∃ rest, s.resetIn = true :: rest ∧ t = (blockReset s).setResetIn rest) ∨
        (s.resetIn.head? ≠ some true ∧ hostStep (s.setResetIn s.resetIn.tail) = .next t)) := by
  unfold step at h
  split_ifs at h with hl
  refine ⟨hl, ?_⟩
  cases hr : s.resetIn with
  | nil =>
    rw [hr] at h
    refine .inr ⟨by simp, ?_⟩
    have : s.setResetIn [] = s := by
      cases s
      simp_all [State.setResetIn]
    rw [List.tail_nil, this]
    exact h
  | cons b rest =>
    rw [hr] at h
    cases b with
    | true => cases h; exact .inl ⟨rest, rfl, rfl⟩
    | false => exact .inr ⟨by simp, h⟩

/-- One step of a machine whose reset input is released is one host step. -/
theorem step_released {s : State} (hl : s.cfg.Legal) (hr : s.resetIn.head? ≠ some true) :
    step s = hostStep (s.setResetIn s.resetIn.tail) := by
  unfold step
  rw [if_pos hl]
  cases h : s.resetIn with
  | nil =>
    have : s.setResetIn [] = s := by
      cases s
      simp_all [State.setResetIn]
    rw [List.tail_nil, this]
  | cons b rest =>
    cases b with
    | true => simp [h] at hr
    | false => rfl

/-- A store in a buffer keeps memory canonical and inside the buffers. -/
theorem storesIn_keeps {c : Config} {m m' : Memory} (h : StoresIn c m m') (hw : Memory.wf m = true)
    (hb : ∀ x ∈ m, ∃ b, inBuf c b x.1) : Memory.wf m' = true ∧ ∀ x ∈ m', ∃ b, inBuf c b x.1 := by
  obtain ⟨b, a, bs, rfl, -, -, h1, h2⟩ := h
  refine ⟨Memory.wf_write hw a bs, fun x hx => ?_⟩
  rcases Memory.mem_write hx with hx | hx
  · exact hb x hx
  · exact ⟨b, by omega, by omega⟩

end Sys2Proof.Machine
end

