-- ==== Sys2Proof/Laws/HostPort.lean ====
section
/-! SUPPORT. The host port and the step: what one host line comes to, and what a step can do to the block. -/

namespace Sys2Proof.Machine

/-- An offset of the window is one the block sees (20_memory.md R65). -/
theorem windowOffset_in (c : Config) {off : Nat} (h : off < 0x5000) : windowOffset c (c.base + off) = some off := by
  unfold windowOffset
  rw [if_pos (by omega)]
  congr 1; omega

/-- An offset from `0x5000` on is not. -/
theorem windowOffset_out (c : Config) {off : Nat} (h : 0x5000 ≤ off) : windowOffset c (c.base + off) = none := by
  unfold windowOffset
  rw [if_neg (by omega)]

/-- A step with reset released runs the host's line on the state with the reset input read. -/
theorem step_line {s : State} {x : HostLine} (hl : s.cfg.Legal) (hr : s.resetIn.head? ≠ some true)
    (hx : s.host.prog[s.host.line]? = some x) :
    step s = runLine x (s.setResetIn s.resetIn.tail) := by
  rw [step_released hl hr, hostStep]
  simp only [State.setResetIn_host, hx]

/-- A host write inside the window is the bus write at its offset. -/
theorem hostWrite_in {s : State} {a : Access} (v : Word) (h : a.off < 0x5000) : hostWrite a v s =
    match transact (.write a v) s with
    | (s', .done) => .next (advance s')
    | (s', .data _) => .next (advance s')
    | (_, .failed f) => .fault f
    | (_, .refused r) => .refused r := by
  unfold hostWrite onBus
  rw [windowOffset_in _ h] <;> rfl

/-- A host read inside the window is the bus read at its offset. -/
theorem hostRead_in {s : State} {a : Access} (k : Fin 8) (h : a.off < 0x5000) : hostRead a k s =
    match transact (.read a) s with
    | (s', .data v) => .next (advance (setVar k v s'))
    | (s', .done) => .next (advance s')
    | (_, .failed f) => .fault f
    | (_, .refused r) => .refused r := by
  unfold hostRead onBus
  rw [windowOffset_in _ h] <;> rfl

/-- A reset input that stays released is read without a trace. -/
theorem setResetIn_nil {s : State} (h : s.resetIn = []) : s.setResetIn s.resetIn.tail = s := by
  cases s; simp_all [State.setResetIn]

/-- A transaction the block does not take, or at an unmapped offset, is a bus error that changes nothing
(60_exceptions.md R187). -/
theorem bad_access {s : State} {a : Access} (v : Word) (h : ¬ (a.bytes = 4 ∧ a.lanes = 0xF ∧ a.off % 4 = 0) ∨ ¬ Mapped s.cfg a.off) :
    transact (.read a) s = (s, .failed (.busError a.off)) ∧ transact (.write a v) s = (s, .failed (.busError a.off)) := by
  by_cases ht : a.takes
  · have hm : ¬ Mapped s.cfg a.off := by
      rcases h with h | h
      · exact absurd ht h
      · exact h
    have := windowMap_unmapped ht.2.2 hm
    simp only [transact, memRead, memWrite]
    rw [if_pos ht, if_pos ht, this]
    exact ⟨rfl, rfl⟩
  · simp only [transact, memRead, memWrite]
    rw [if_neg ht, if_neg ht]
    exact ⟨rfl, rfl⟩

/-- The placed line stands at its place. -/
theorem placeLine_get (p : List HostLine) (n : Nat) (x : HostLine) : (placeLine p n x)[n]? = some x := by
  unfold placeLine
  have : (p.take n ++ List.replicate (n - p.length) HostLine.halt).length = n := by simp; omega
  rw [List.getElem?_append_right (by omega), this]
  simp

/-- `findLabel` answers the place of a label line. -/
theorem findLabel_get {p : List HostLine} {l n : Nat} (h : findLabel p l = some n) : p[n]? = some (.label l) := by
  induction p generalizing n with
  | nil => simp [findLabel] at h
  | cons x p ih =>
    simp only [findLabel] at h
    split at h
    · cases h; rename_i hx; simp [hx]
    · cases hf : findLabel p l with
      | none => rw [hf] at h; cases h
      | some m => rw [hf] at h; cases h; simpa using ih hf

/-- Everything a step can do to the build, STATUS.ERR and the buffers. -/
theorem step_effect {s t : State} (hl : s.cfg.Legal) (he : s.err.toNat ≤ 5) (h : step s = .next t) :
   t.cfg = s.cfg ∧ t.err.toNat ≤ 5 ∧ (t.mem = [] ∨ t.mem = s.mem ∨ StoresIn s.cfg s.mem t.mem ∨
        ∃ m, StoresIn s.cfg s.mem m ∧ StoresIn s.cfg m t.mem) := by
  obtain ⟨-, ⟨rest, h1, rfl⟩ | ⟨-, h⟩⟩ := step_cases h
  · simp
  · rcases hostStep_cases h with ⟨g, rfl⟩ | ⟨a, v, o, s', hp, ho, hm, rfl⟩
    · exact ⟨rfl, he, .inr (.inl rfl)⟩
    · obtain ⟨h1, h2, h3⟩ := memWrite_effect (by simpa using hl) (by simpa using he) hm
      exact ⟨h1.1, h2, .inr h3⟩

/-- A store of whole words keeps buffers written in whole words. -/
theorem storesIn_whole {c : Config} {m m' : Memory} (h : StoresIn c m m') (hw : ∀ a, (m.read? a).isSome = (m.read? (a - a % 4)).isSome) :
   ∀ a, (m'.read? a).isSome = (m'.read? (a - a % 4)).isSome := by
  obtain ⟨b, k, bs, rfl, h4, hl4, -, -⟩ := h
  intro a
  rw [Memory.read?_write, Memory.read?_write]
  by_cases hin : k ≤ a ∧ a < k + bs.length
  · have hin' : k ≤ a - a % 4 ∧ a - a % 4 < k + bs.length := by omega
    rw [if_pos hin, if_pos hin']
    have l1 : a - k < bs.length := by omega
    have l2 : a - a % 4 - k < bs.length := by omega
    simp [l1, l2]
  · have hin' : ¬ (k ≤ a - a % 4 ∧ a - a % 4 < k + bs.length) := by omega
    rw [if_neg hin, if_neg hin']
    exact hw a

/-- Moving the window changes nothing in the window map or in a read (20_memory.md R72). -/
theorem memRead_withBase (b : Nat) (a : Access) (s : State) : memRead a (withBase b s) = memRead a s := rfl

end Sys2Proof.Machine
end

