-- ==== Sys2Proof/Laws/PerInstr.lean ====
section
/-! SUPPORT. The encoding, command by command (30_encoding.md R83, R85), and the two fields of a command word. -/

namespace Sys2Proof.Laws.Encoding

/-- The command word of a well-formed command decodes to it, and no other opcode of the map is it. -/
def Statement (i : Instr) : Prop :=
  i.wf = true ∧ Sys2Proof.decode (Sys2Proof.encode i) = .ok i ∧ rsvdField (Sys2Proof.encode i) = 0 ∧
    ∀ j, Sys2Proof.encode j = Sys2Proof.encode i → j = i

theorem loadN : Statement .loadN := ⟨rfl, rfl, rfl, fun j h => by cases j <;> first | rfl | cases h⟩

theorem n0inv : Statement .n0inv := ⟨rfl, rfl, rfl, fun j h => by cases j <;> first | rfl | cases h⟩

theorem rr : Statement .rr := ⟨rfl, rfl, rfl, fun j h => by cases j <;> first | rfl | cases h⟩

theorem encode : Statement .encode := ⟨rfl, rfl, rfl, fun j h => by cases j <;> first | rfl | cases h⟩

theorem decode : Statement .decode := ⟨rfl, rfl, rfl, fun j h => by cases j <;> first | rfl | cases h⟩

theorem convert : Statement .convert := ⟨rfl, rfl, rfl, fun j h => by cases j <;> first | rfl | cases h⟩

end Sys2Proof.Laws.Encoding

namespace Sys2Proof

theorem rsvdField_toNat (v : Word) : (rsvdField v).toNat = v.toNat / 256 := by
  have := v.isLt
  simp only [rsvdField, BitVec.extractLsb'_toNat, Nat.shiftRight_eq_div_pow]
  omega

theorem opcField_toNat (v : Word) : (opcField v).toNat = v.toNat % 256 := by
  simp [opcField, BitVec.extractLsb'_toNat]

/-- A command word is its two fields (30_encoding.md R80). -/
theorem word_eq_fields (v : Word) : rsvdField v ++ opcField v = v := by
  apply BitVec.eq_of_toNat_eq
  have h := (opcField v).isLt
  rw [BitVec.toNat_append, ← Nat.shiftLeft_add_eq_or_of_lt h, rsvdField_toNat, opcField_toNat, Nat.shiftLeft_eq]
  omega

/-- The opcode map holds a command at its own opcode alone (30_encoding.md R83). -/
theorem opcodeMap_eq_some {o : BitVec 8} {i : Instr} (h : opcodeMap o = some i) : o = i.opc := by
  unfold opcodeMap at h
  split_ifs at h <;> cases h <;> assumption

end Sys2Proof
end

