-- ==== Sys2Proof/Tests/Slice0.lean ====
section
/-! SUPPORT. The author's own tests. Expected values come from the spec: 30_encoding.md section 2 for the words, the
tables L2-1 to L2-9 of 95_test_vectors.md (their row in each docstring) for the results. The last part holds, for each
obligation with hypotheses, states and operands that meet them. -/

namespace Sys2Proof.Tests

open Sys2Proof.Machine

/-! Small states at `W = 4`, and what a step leaves. -/

/-- The build of the L2 vectors. -/
def build4 : Config := { width := 4, base := 0x40000000 }

/-- A block of that build right after reset. -/
def blank : State := State.resetOf build4

/-- `s` with `bs` written to the start of a buffer. -/
def put (b : Buffer) (bs : List Byte) (s : State) : State := storeBuf s b 0 bs

/-- The state a result goes on with. -/
def nextOf : Result → Option State
  | .next s => some s
  | .fault _ => none
  | .refused _ => none

/-- The fault a result stops with. -/
def faultOf : Result → Option Fault
  | .next _ => none
  | .fault f => some f
  | .refused _ => none

/-- The refusal a result stops with. -/
def refusalOf : Result → Option Refusal
  | .next _ => none
  | .fault _ => none
  | .refused r => some r

/-- `s` with the host at a program of one line. -/
def atLine (x : HostLine) (s : State) : State := s.setHost { s.host with prog := [x], line := 0 }

/-- N = 3233 in N_BUF. -/
def key : State := put .nBuf [0xA1, 0x0C, 0x00, 0x00] blank

/-- N = 0xDEADBEEE, even, in N_BUF. -/
def evenKey : State := put .nBuf [0xEE, 0xBE, 0xAD, 0xDE] blank

/-- N = 0 in N_BUF. -/
def zeroKey : State := put .nBuf [0x00, 0x00, 0x00, 0x00] blank

/-- EN1's fields. -/
def fields : State :=
  ((put .rrBuf [0xED, 0x07, 0x00, 0x00] key).setMsw 1).setN0inv 0x669F289F |>.setExp 17

/-- EN1's record. -/
def record : List Byte :=
  [0x01, 0x00, 0x00, 0x00, 0x9F, 0x28, 0x9F, 0x66, 0xA1, 0x0C, 0x00, 0x00, 0xED, 0x07, 0x00, 0x00, 0x11, 0x00, 0x00,
    0x00]

/-- The start state of L2-6, with REC_VALID = `n`. -/
def received (n : Word) : State :=
  (((((put .recBuf record (put .rrBuf [0x22, 0x22, 0x22, 0x22] (put .nBuf [0x11, 0x11, 0x11, 0x11] blank))).setMsw
    7).setN0inv 7).setExp 7).setRecValid n)

/-- BE_LEN = `n` and `bs` in BE_BUF. -/
def presented (n : Word) (bs : List Byte) : State := (put .beBuf bs blank).setBeLen n

/-! Decoding: each word written out bit by bit, RSVD then OPC (30_encoding.md R80, R83, R84). -/

theorem test_decode_loadN : decode (0b000000000000000000000000#24 ++ 0b00000001#8) = .ok .loadN := by rfl
theorem test_decode_n0inv : decode (0b000000000000000000000000#24 ++ 0b00000010#8) = .ok .n0inv := by rfl
theorem test_decode_rr : decode (0b000000000000000000000000#24 ++ 0b00000011#8) = .ok .rr := by rfl
theorem test_decode_encode : decode (0b000000000000000000000000#24 ++ 0b00000100#8) = .ok .encode := by rfl
theorem test_decode_decode : decode (0b000000000000000000000000#24 ++ 0b00000101#8) = .ok .decode := by rfl
theorem test_decode_convert : decode (0b000000000000000000000000#24 ++ 0b00000110#8) = .ok .convert := by rfl
theorem test_decode_zero : decode 0x00000000 = .error .unknownOpcode := by rfl
theorem test_decode_seven : decode 0x00000007 = .error .unknownOpcode := by rfl
theorem test_decode_low_reserved_bit : decode 0x00000101 = .error .reservedBits := by rfl
theorem test_decode_high_reserved_bit : decode 0x80000006 = .error .reservedBits := by rfl
theorem test_table_word : decodeTableWord 32 6 = some .convert := by decide
theorem test_table_word_too_long : decodeTableWord 40 (2 ^ 32 + 6) = none := by decide

/-! WellFormed: each check and a term it refuses. -/

theorem test_wf_width : build4.wf = true := by decide
theorem test_wf_width_not_words : ({ width := 6, base := 0 } : Config).wf = false := by decide
theorem test_wf_width_zero : ({ width := 0, base := 0 } : Config).wf = false := by decide
theorem test_wf_width_too_large : ({ width := 2044, base := 0 } : Config).wf = false := by decide
theorem test_wf_access : (Access.word32 0x4FFC).wf = true := by decide
theorem test_wf_access_narrow : ({ off := 4, bytes := 2, lanes := 0xF } : Access).wf = false := by decide
theorem test_wf_access_partial : ({ off := 4, bytes := 4, lanes := 0x7 } : Access).wf = false := by decide
theorem test_wf_access_outside : (Access.word32 0x5000).wf = false := by decide
theorem test_wf_program : hostProgramWf [.label 1, wr 0x014 17, rd 0x004 0, .bne 0 0 1, .halt] = true := by decide
theorem test_wf_program_bad_write : hostProgramWf [wr 0x5000 0] = false := by decide
theorem test_wf_program_bad_read : hostProgramWf [.rd { off := 0, bytes := 1, lanes := 1 } 0] = false := by decide
theorem test_wf_program_no_label : hostProgramWf [.beq 0 0 1, .bne 0 0 2, .label 1] = false := by decide
theorem test_wf_program_label_twice : hostProgramWf [.label 1, .halt, .label 1] = false := by decide

/-! The bus (L2-1). -/

/-- H1, H2, H4. -/
theorem test_read_constants :
    (transact (.read (Access.word32 0x008)) blank).2 = .data 4 ∧
      (transact (.read (Access.word32 0x00C)) blank).2 = .data 20 ∧
      (transact (.read (Access.word32 0x000)) blank).2 = .data 0 := by decide

/-- H5: STATUS ignores a write. -/
theorem test_write_status :
    transact (.write (Access.word32 0x004) 0) (blank.setErr 3) = (blank.setErr 3, .done) := by decide

/-- H12: the four bytes of a BE_BUF word, the lowest first. -/
theorem test_write_buffer :
    transact (.write (Access.word32 0x4004) 0x11223344) blank =
      (blank.setMem [(0x4004, 0x44), (0x4005, 0x33), (0x4006, 0x22), (0x4007, 0x11)], .done) := by decide

/-- H9, H13, H14: beyond `W`, misaligned, and of another width. -/
theorem test_bus_errors :
    (transact (.read (Access.word32 0x1004)) key).2 = .failed (.busError 0x1004) ∧
      (transact (.read (Access.word32 0x002)) key).2 = .failed (.busError 0x002) ∧
      (transact (.read { off := 4, bytes := 2, lanes := 3 }) key).2 = .failed (.busError 0x004) := by decide

/-- H17: a bus error runs no command. -/
theorem test_misaligned_command :
    transact (.write (Access.word32 0x001) 2) (key.setErr 2) = (key.setErr 2, .failed (.busError 1)) := by decide

/-- L2-9: a never-written word (70_reset_and_hazards.md R201). -/
theorem test_read_unwritten :
    (transact (.read (Access.word32 0x1000)) blank).2 = .failed (.unwrittenByte 0x1000) := by decide

/-! The commands, by 95_test_vectors.md. -/

/-- LN4: a leading zero byte; N_BUF becomes EF BE AD DE. -/
theorem test_loadN :
    (nextOf (exec .loadN (presented 5 [0x00, 0xDE, 0xAD, 0xBE, 0xEF, 0x00, 0x00, 0x00]))).map
        (fun t => (t.err, t.mem.take 4)) =
      some (0, [(0x1000, 0xEF), (0x1001, 0xBE), (0x1002, 0xAD), (0x1003, 0xDE)]) := by decide

/-- LN10 and LN8: at BE_LEN = 2W the check is SizeMismatch, past it BadLength, with BE_BUF not read. -/
theorem test_loadN_errors :
    nextOf (exec .loadN (presented 8 [0x80, 0, 0, 0, 0, 0, 0, 0])) =
        some ((presented 8 [0x80, 0, 0, 0, 0, 0, 0, 0]).setErr 2) ∧
      nextOf (exec .loadN (blank.setBeLen 9)) = some ((blank.setBeLen 9).setErr 5) := by decide

/-- NI6. -/
theorem test_n0inv : nextOf (exec .n0inv key) = some (key.setN0inv 0x669F289F) := by decide

/-- NI18. -/
theorem test_n0inv_even : nextOf (exec .n0inv evenKey) = some (evenKey.setErr 1) := by decide

/-- RR4. -/
theorem test_rr : nextOf (exec .rr key) = some (put .rrBuf [0xED, 0x07, 0x00, 0x00] key) := by decide

/-- RR13 (an even modulus is accepted) and RR14 (zero is not). -/
theorem test_rr_even :
    nextOf (exec .rr evenKey) = some (put .rrBuf [0x3E, 0xE8, 0x95, 0x0F] evenKey) ∧
      nextOf (exec .rr zeroKey) = some (zeroKey.setErr 1) := by decide

/-- EN1. -/
theorem test_encode : nextOf (exec .encode fields) = some ((put .recBuf record fields).setRecValid 20) := by decide

/-- EN1's fields with N_BUF never written. -/
theorem test_encode_unwritten : faultOf (exec .encode blank) = some (.unwrittenByte 0x1000) := by decide

/-- DE3. -/
theorem test_decode :
    nextOf (exec .decode (received 20)) = some ((put .recBuf record fields).setRecValid 20) := by decide

/-- DE2. -/
theorem test_decode_short : nextOf (exec .decode (received 19)) = some ((received 19).setErr 3) := by decide

/-- CV1. -/
theorem test_convert :
    nextOf (exec .convert (key.setExp 17)) = some ((put .recBuf record fields).setRecValid 20) := by decide

/-- CV4. -/
theorem test_convert_even : nextOf (exec .convert evenKey) = some (evenKey.setErr 1) := by decide

/-! The host and reset. -/

/-- `wbytes` of 30_encoding.md R87, with the word of LN4, and `rbytes`. -/
theorem test_wbytes : wbytes 0x4000 [0x00, 0xDE, 0xAD, 0xBE] = some [wr 0x4000 0xBEADDE00] := by decide
theorem test_wbytes_partial : wbytes 0x4000 [0x00, 0xDE, 0xAD] = none := by decide
theorem test_rbytes : rbytes 0x3000 8 2 = some [rd 0x3000 2, rd 0x3004 3] := by decide
theorem test_rbytes_past_h7 : rbytes 0x3000 8 7 = none := by decide

/-- A branch taken to its label (30_encoding.md R86). -/
theorem test_branch :
    (nextOf (step (blank.setHost { blank.host with prog := [.beq 0 0 7, .halt, .label 7] }))).map (·.host.line) =
      some 2 := by decide

/-- 70_reset_and_hazards.md R200: the scalar registers and STATUS are 0, no buffer byte is written. -/
theorem test_reset :
    nextOf (step ((((received 20).setErr 3).setBeLen 5).setResetIn [true])) = some blank := by decide

/-- Under an asserted reset the host's line waits. -/
theorem test_reset_takes_no_transaction :
    nextOf (step ((atLine (wr 0x014 17) blank).setResetIn [true, false])) =
      some ((atLine (wr 0x014 17) blank).setResetIn [false]) := by decide

/-- The command placed for the host's next line runs from reset, in the reference build too. -/
theorem test_withFetchWord :
    (nextOf (step (blank.withFetchWord 32 5))).map (fun t => (t.err, t.host.line)) = some (3, 1) := by decide
theorem test_reference_reset :
    (nextOf (step (State.reset.withFetchWord 32 5))).map (·.err) = some 3 := by decide

/-! Witnesses: for each obligation with hypotheses, states and operands that meet them all, each clause at a boundary of
its range. -/

/-- The widest build. -/
def buildMax : Config := { width := 2040, base := 0 }

theorem witness_legal : build4.Legal ∧ buildMax.Legal ∧ Config.reference.Legal := by decide

/-- A state meets the invariant when its parts do. -/
theorem inv_of {s : State} (hl : s.cfg.Legal) (hw : Memory.wf s.mem = true)
    (hm : ∀ c ∈ s.mem, inBuf s.cfg .nBuf c.1 ∨ inBuf s.cfg .rrBuf c.1 ∨ inBuf s.cfg .recBuf c.1 ∨ inBuf s.cfg .beBuf c.1)
    (he : s.err.toNat ≤ 5) : s.Inv :=
  ⟨hl, hw, fun c hc => by
    rcases hm c hc with h | h | h | h
    · exact ⟨.nBuf, h⟩
    · exact ⟨.rrBuf, h⟩
    · exact ⟨.recBuf, h⟩
    · exact ⟨.beBuf, h⟩, he⟩

theorem inv_key : key.Inv := inv_of (by decide) (by decide) (by decide) (by decide)
theorem inv_evenKey : evenKey.Inv := inv_of (by decide) (by decide) (by decide) (by decide)
theorem inv_fields : fields.Inv := inv_of (by decide) (by decide) (by decide) (by decide)
theorem inv_received : (received 20).Inv := inv_of (by decide) (by decide) (by decide) (by decide)

theorem witness_ResetLeavesTheTabledState :
    (key.setResetIn [true]).cfg.Legal ∧ (key.setResetIn [true]).resetIn = true :: [] := by decide

/-- Two blocks that differ in ERR and N_BUF. -/
theorem witness_ResetForgetsWhatCameBefore :
    let s₁ := key.setResetIn [true, false]
    let s₂ := (blank.setErr 3).setResetIn [true, false]
    s₁.cfg = s₂.cfg ∧ s₁.host = s₂.host ∧ s₁.resetIn = true :: [false] ∧ s₂.resetIn = true :: [false] ∧ s₁ ≠ s₂ := by
  decide

/-- The first and last word of each buffer, a written and a never-written one, and unmapped offsets next to mapped
ones. -/
theorem witness_ReadGivesWhatTheWindowMapSays :
    fields.cfg.Legal ∧
      ¬ ((Access.word32 0x006).bytes = 4 ∧ (Access.word32 0x006).lanes = 0xF ∧ (Access.word32 0x006).off % 4 = 0) ∧
      (0 % 4 = 0 ∧ 0 < bufSize fields.cfg .nBuf ∧ loadBuf fields .nBuf 0 4 = .ok [0xA1, 0x0C, 0x00, 0x00]) ∧
      (16 % 4 = 0 ∧ 16 < bufSize fields.cfg .recBuf ∧ loadBuf fields .recBuf 16 4 = .error (.unwrittenByte 0x3010)) ∧
      (0x024 % 4 = 0 ∧ ¬ Mapped fields.cfg 0x024) ∧ 0x1004 % 4 = 0 ∧ ¬ Mapped fields.cfg 0x1004 :=
  ⟨by decide, by decide, ⟨by decide, by decide, rfl⟩, ⟨by decide, by decide, rfl⟩, by decide⟩

/-- A command that completes, one that stops, an illegal word, the last word of BE_BUF and the first offset after it. -/
theorem witness_WriteStoresWhatTheWindowMapSays :
    blank.cfg.Legal ∧
      ¬ (3 = 4 ∧ (0xF : BitVec 4) = 0xF ∧ 0x1000 % 4 = 0) ∧
      (decode 7 = .error .unknownOpcode) ∧
      (decode 5 = .ok .decode ∧ exec .decode blank = .next (blank.setErr 3)) ∧
      (decode 4 = .ok .encode ∧ exec .encode blank = .fault (.unwrittenByte 0x1000)) ∧
      (4 % 4 = 0 ∧ 4 < bufSize blank.cfg .beBuf) ∧ 0x4008 % 4 = 0 ∧ ¬ Mapped blank.cfg 0x4008 :=
  ⟨by decide, by decide, rfl, ⟨rfl, rfl⟩, ⟨rfl, rfl⟩, by decide⟩

/-- The first read-write register, the last one, and the last word of REC_BUF. -/
theorem witness_WrittenWordReadsBackAndOthersStay :
    build4.Legal ∧ (0x010 % 4 = 0 ∧ 0x010 ≤ 0x010 ∧ Mapped build4 0x010) ∧
      (0x020 % 4 = 0 ∧ 0x010 ≤ 0x020 ∧ Mapped build4 0x020) ∧
      (0x3010 % 4 = 0 ∧ 0x010 ≤ 0x3010 ∧ Mapped build4 0x3010) ∧ 0x000 % 4 = 0 ∧ 0x000 ≠ 0x3010 := by decide

/-- The last word of the window, unmapped, and a mapped one with a missing byte enable. -/
theorem witness_BusErrorsAreExactAndChangeNothing :
    let s := (atLine (wr 0x4FFC 0) blank).setResetIn [false, true]
    let t := atLine (.rd { off := 4, bytes := 4, lanes := 0x7 } 7) blank
    (s.cfg.Legal ∧ 0x4FFC < 0x5000 ∧ ¬ Mapped s.cfg 0x4FFC ∧ s.resetIn.head? ≠ some true ∧
        s.host.prog[s.host.line]? = some (.wr (Access.word32 0x4FFC) 0)) ∧
      (t.cfg.Legal ∧ 4 < 0x5000 ∧ ¬ (4 = 4 ∧ (0x7 : BitVec 4) = 0xF ∧ 4 % 4 = 0) ∧ Mapped t.cfg 4 ∧ t.resetIn.head? ≠ some true ∧
        t.host.prog[t.host.line]? = some (.rd { off := 4, bytes := 4, lanes := 0x7 } 7)) := by decide

/-- A command that completes, one that stops and an illegal word, the reset input showing "released" or nothing. -/
theorem witness_StepRunsTheDecodedCommand :
    let s := (atLine (wr 0x000 5) blank).setResetIn [false, true]
    let t := atLine (wr 0x000 4) blank
    let u := atLine (wr 0x000 7) blank
    (s.cfg.Legal ∧ s.resetIn.head? ≠ some true ∧ s.host.prog[s.host.line]? = some (wr 0x000 5) ∧
        decode 5 = .ok .decode ∧
        exec .decode (s.setResetIn s.resetIn.tail) = .next ((s.setResetIn s.resetIn.tail).setErr 3)) ∧
      (t.cfg.Legal ∧ t.resetIn.head? ≠ some true ∧ t.host.prog[t.host.line]? = some (wr 0x000 4) ∧
        decode 4 = .ok .encode ∧ exec .encode (t.setResetIn t.resetIn.tail) = .fault (.unwrittenByte 0x1000)) ∧
      (u.cfg.Legal ∧ u.resetIn.head? ≠ some true ∧ u.host.prog[u.host.line]? = some (wr 0x000 7) ∧
        decode 7 = .error .unknownOpcode) :=
  ⟨⟨by decide, by decide, rfl, rfl, rfl⟩, ⟨by decide, by decide, rfl, rfl, rfl⟩, by decide, by decide, rfl, rfl⟩

theorem witness_PlacedCommandRunsNext :
    blank.cfg.Legal ∧
      exec .decode (blank.withFetchWord 32 (encode .decode).toNat) =
        .next ((blank.withFetchWord 32 (encode .decode).toNat).setErr 3) ∧
      exec .encode (blank.withFetchWord 32 (encode .encode).toNat) = .fault (.unwrittenByte 0x1000) :=
  ⟨by decide, rfl, rfl⟩

/-- Each kind of line; the write at the window's last mapped word of `W = 4`, the branches to a label. -/
theorem witness_HostLinesFollowTheNotation :
    let w := (atLine (wr 0x4004 1) blank).setResetIn [false, true]
    let r := atLine (rd 0x008 7) blank
    let b := blank.setHost { blank.host with prog := [.beq 0 0 9, .bne 0 0 9, .label 9, .halt] }
    (w.cfg.Legal ∧ w.resetIn.head? ≠ some true ∧ w.host.prog[w.host.line]? = some (wr 0x4004 1) ∧ 0x4004 < 0x5000 ∧
        transact (.write (Access.word32 0x4004) 1) (w.setResetIn w.resetIn.tail) =
          (storeBuf (w.setResetIn [true]) .beBuf 4 [1, 0, 0, 0], .done)) ∧
      (r.cfg.Legal ∧ r.resetIn.head? ≠ some true ∧ r.host.prog[r.host.line]? = some (rd 0x008 7) ∧ 0x008 < 0x5000 ∧
        transact (.read (Access.word32 0x008)) (r.setResetIn r.resetIn.tail) = (r.setResetIn r.resetIn.tail, .data 4)) ∧
      (b.host.prog[b.host.line]? = some (.beq 0 0 9) ∧ findLabel b.host.prog 9 = some 2) ∧
      ((goto 1 b).host.prog[(goto 1 b).host.line]? = some (.bne 0 0 9) ∧ findLabel (goto 1 b).host.prog 9 = some 2) ∧
      (goto 2 b).host.prog[(goto 2 b).host.line]? = some (.label 9) ∧
      (goto 3 b).host.prog[(goto 3 b).host.line]? = some .halt ∧ b.cfg.Legal ∧ b.resetIn.head? ≠ some true :=
  ⟨⟨by decide, by decide, rfl, by decide, by decide⟩, ⟨by decide, by decide, rfl, by decide, by decide⟩, ⟨rfl, rfl⟩,
    ⟨rfl, rfl⟩, rfl, rfl, by decide, by decide⟩

/-- The first offset outside the window, and the widths next to the legal ones. -/
theorem witness_StepRefusesWhatIsNotTheBlocks :
    let s := (atLine (wr 0x5000 0) blank).setResetIn [false]
    (s.cfg.Legal ∧ s.resetIn.head? ≠ some true ∧ 0x5000 ≤ (Access.word32 0x5000).off ∧
        s.host.prog[s.host.line]? = some (.wr (Access.word32 0x5000) 0)) ∧
      ¬ (0 % 4 = 0 ∧ 4 ≤ 0 ∧ 0 ≤ 2040) ∧ ¬ (2044 % 4 = 0 ∧ 4 ≤ 2044 ∧ 2044 ≤ 2040) := by decide

/-- The smallest and largest words of each of the three ways to be illegal; 1 and 6 are in none. -/
theorem witness_IllegalWordsOnlyRaiseErrorFour :
    (∀ v ∈ [0x00000000, 0x00000007, 0x000000FF, 0x00000100, 0x00000101, 0x80000006, (0xFFFFFFFF : Word)],
        v.toNat / 256 ≠ 0 ∨ v.toNat % 256 = 0 ∨ 7 ≤ v.toNat % 256) ∧
      ∀ v ∈ [0x00000001, (0x00000006 : Word)],
        ¬ (v.toNat / 256 ≠ 0 ∨ v.toNat % 256 = 0 ∨ 7 ≤ v.toNat % 256) := by constructor <;> simp

theorem witness_DecodeAndEncodeAgree : 6 < 2 ^ 32 ∧ 2 ^ 32 - 1 < 2 ^ 32 := by decide

/-- The largest value of four bytes, and its last byte. -/
theorem witness_PadAndReverseGiveTheRecordLayout : 2 ^ 32 - 1 < 2 ^ (8 * 4) ∧ 3 < 4 ∧ 0 < 2 ^ (8 * 0) := by decide

/-- LN8, LN10, LN5 and LN2: BE_LEN = 2W + 1, 2W with the value too wide, 2W with the widest that fits, and 0. -/
theorem witness_LoadNFollowsItsRule :
    2 * (blank.setBeLen 9).cfg.width < (blank.setBeLen 9).beLen.toNat ∧
      (let s := presented 8 [0, 0, 0, 1, 0, 0, 0, 0];
        s.beLen.toNat ≤ 2 * s.cfg.width ∧ loadBuf s .beBuf 0 s.beLen.toNat = .ok [0, 0, 0, 1, 0, 0, 0, 0] ∧
          2 ^ (8 * s.cfg.width) ≤ beValue [0, 0, 0, 1, 0, 0, 0, 0]) ∧
      (let s := presented 8 [0, 0, 0, 0, 0xFF, 0xFF, 0xFF, 0xFF];
        s.beLen.toNat ≤ 2 * s.cfg.width ∧ loadBuf s .beBuf 0 s.beLen.toNat = .ok [0, 0, 0, 0, 0xFF, 0xFF, 0xFF, 0xFF] ∧
          beValue [0, 0, 0, 0, 0xFF, 0xFF, 0xFF, 0xFF] < 2 ^ (8 * s.cfg.width)) ∧
      loadBuf blank .beBuf 0 blank.beLen.toNat = .ok [] ∧ beValue [] < 2 ^ (8 * blank.cfg.width) :=
  ⟨by decide, ⟨by decide, rfl, by decide⟩, ⟨by decide, rfl, by decide⟩, rfl, by decide⟩

/-- An even and an odd modulus (NI16 and NI6), and a word with the property. -/
theorem witness_N0invFollowsItsRule :
    (loadBuf zeroKey .nBuf 0 4 = .ok [0, 0, 0, 0] ∧ leValue [0, 0, 0, 0] % 2 = 0) ∧
      (loadBuf key .nBuf 0 4 = .ok [0xA1, 0x0C, 0, 0] ∧ leValue [0xA1, 0x0C, 0, 0] % 2 = 1) ∧
      (key.cfg.Legal ∧ loadBuf key .nBuf 0 key.cfg.width = .ok [0xA1, 0x0C, 0, 0]) ∧
      (0x669F289F : Word).toNat * leValue [0xA1, 0x0C, 0, 0] % 2 ^ 32 = 2 ^ 32 - 1 :=
  ⟨⟨rfl, by decide⟩, ⟨rfl, by decide⟩, ⟨by decide, rfl⟩, by decide⟩

/-- N = 0 and the smallest nonzero N. -/
theorem witness_RrFollowsItsRule :
    (loadBuf zeroKey .nBuf 0 zeroKey.cfg.width = .ok [0, 0, 0, 0] ∧ leValue [0, 0, 0, 0] = 0) ∧
      (let s := put .nBuf [1, 0, 0, 0] blank;
        loadBuf s .nBuf 0 s.cfg.width = .ok [1, 0, 0, 0] ∧ leValue [1, 0, 0, 0] ≠ 0) :=
  ⟨⟨rfl, by decide⟩, rfl, by decide⟩

theorem witness_EncodeFollowsItsRule :
    fields.cfg.Legal ∧ loadBuf fields .nBuf 0 fields.cfg.width = .ok [0xA1, 0x0C, 0, 0] ∧
      loadBuf fields .rrBuf 0 fields.cfg.width = .ok [0xED, 0x07, 0, 0] ∧
      ¬ inBuf fields.cfg .recBuf 0x3014 ∧ ¬ inBuf fields.cfg .recBuf 0x2FFF := ⟨by decide, rfl, rfl, by decide⟩

/-- DE2 and DE3: REC_VALID = RECLEN - 1 and RECLEN. -/
theorem witness_DecodeFollowsItsRule :
    (received 19).cfg.Legal ∧ (received 19).recValid.toNat < 12 + 2 * (received 19).cfg.width ∧
      12 + 2 * (received 20).cfg.width ≤ (received 20).recValid.toNat ∧
      loadBuf (received 20) .recBuf 0 (12 + 2 * (received 20).cfg.width) = .ok record :=
  ⟨by decide, by decide, by decide, rfl⟩

theorem witness_ConvertFollowsItsRule :
    key.cfg.Legal ∧
      (loadBuf evenKey .nBuf 0 evenKey.cfg.width = .ok [0xEE, 0xBE, 0xAD, 0xDE] ∧
        leValue [0xEE, 0xBE, 0xAD, 0xDE] % 2 = 0) ∧
      (loadBuf key .nBuf 0 key.cfg.width = .ok [0xA1, 0x0C, 0, 0] ∧ leValue [0xA1, 0x0C, 0, 0] % 2 = 1) :=
  ⟨by decide, ⟨rfl, by decide⟩, rfl, by decide⟩

/-- At `W = 8`, an even and an odd low word below four bytes never written (log entry 10). -/
theorem witness_ConvertChecksParityFirst :
    let e := put .nBuf [0xEE, 0xBE, 0xAD, 0xDE] (State.resetOf { width := 8, base := 0 })
    let o := put .nBuf [0xA1, 0x0C, 0, 0] (State.resetOf { width := 8, base := 0 })
    (e.cfg.Legal ∧ loadBuf e .nBuf 0 4 = .ok [0xEE, 0xBE, 0xAD, 0xDE] ∧ leValue [0xEE, 0xBE, 0xAD, 0xDE] % 2 = 0) ∧
      (o.cfg.Legal ∧ loadBuf o .nBuf 0 4 = .ok [0xA1, 0x0C, 0, 0] ∧ leValue [0xA1, 0x0C, 0, 0] % 2 = 1 ∧
        loadBuf o .nBuf 0 o.cfg.width = .error (.unwrittenByte 0x1004)) :=
  ⟨⟨by decide, rfl, by decide⟩, by decide, rfl, by decide, rfl⟩

/-- An odd, an even nonzero and a zero modulus, the last with RR_BUF written. -/
theorem witness_ConvertEqualsTheSeparateCommands :
    (key.Inv ∧ loadBuf key .nBuf 0 key.cfg.width = .ok [0xA1, 0x0C, 0, 0] ∧ leValue [0xA1, 0x0C, 0, 0] % 2 = 1) ∧
      (evenKey.Inv ∧ loadBuf evenKey .nBuf 0 evenKey.cfg.width = .ok [0xEE, 0xBE, 0xAD, 0xDE] ∧
        leValue [0xEE, 0xBE, 0xAD, 0xDE] % 2 = 0 ∧ leValue [0xEE, 0xBE, 0xAD, 0xDE] ≠ 0) ∧
      (let s := put .rrBuf [1, 2, 3, 4] zeroKey;
        s.Inv ∧ loadBuf s .nBuf 0 s.cfg.width = .ok [0, 0, 0, 0] ∧ leValue [0, 0, 0, 0] = 0 ∧
          Written s .rrBuf 0 s.cfg.width) :=
  ⟨⟨inv_key, rfl, by decide⟩, ⟨inv_evenKey, rfl, by decide, by decide⟩,
    inv_of (by decide) (by decide) (by decide) (by decide), rfl, by decide, by unfold Written; decide⟩

theorem witness_EncodeThenDecodeKeepsTheFields :
    fields.Inv ∧ Written fields .nBuf 0 fields.cfg.width ∧ Written fields .rrBuf 0 fields.cfg.width :=
  ⟨inv_fields, by unfold Written; decide, by unfold Written; decide⟩

theorem witness_DecodeThenEncodeKeepsTheRecord :
    (received 20).Inv ∧ (received 20).cfg.recLen ≤ (received 20).recValid.toNat ∧
      Written (received 20) .recBuf 0 (received 20).cfg.recLen :=
  ⟨inv_received, by decide, by unfold Written; decide⟩

/-- A command that succeeds and one that fails. -/
theorem witness_CommandsWriteOnlyTheirColumns :
    fields.cfg.Legal ∧ exec .encode fields = .next (((put .recBuf record fields).setRecValid 20).setErr 0) ∧
      ¬ writesItem fields.cfg .encode .msw ∧ ¬ writesItem fields.cfg .encode (.byte 0x1000) ∧
      exec .decode blank = .next (blank.setErr 3) :=
  ⟨by decide, rfl, id, by simp [writesItem, inBuf, bufBase], rfl⟩

/-- N0INV at `W = 8`: the upper half of N_BUF written in one state and not in the other, and another ERR and EXP. And
the fault of two states that agree on nothing being written. -/
theorem witness_CommandsReadOnlyTheirColumns :
    (let s₁ := put .nBuf [1, 0, 0, 0, 1, 0, 0, 0] (State.resetOf { width := 8, base := 0 });
      let s₂ := ((put .nBuf [1, 0, 0, 0] (State.resetOf { width := 8, base := 0 })).setExp 17).setErr 3;
      s₁.cfg.Legal ∧ s₁.cfg = s₂.cfg ∧ s₁ ≠ s₂ ∧ (∀ x, readsItem s₁ .n0inv x → sameItem s₁ s₂ x) ∧
        exec .n0inv s₁ = .next ((s₁.setN0inv 0xFFFFFFFF).setErr 0) ∧ ((s₁.setN0inv 0xFFFFFFFF).setErr 0).err = 0) ∧
      ((∀ x, readsItem blank .n0inv x → sameItem blank (blank.setExp 17) x) ∧
        exec .n0inv blank = .fault (.unwrittenByte 0x1000)) := by
  refine ⟨⟨by decide, rfl, by decide, fun x hx => ?_, ?_, rfl⟩, fun x hx => ?_, rfl⟩
  · cases x with
    | byte off =>
      obtain ⟨h1, h2⟩ := hx
      simp only [bufBase] at h1 h2
      interval_cases off <;> rfl
    | _ => exact hx.elim
  · have h : nextOf (exec .n0inv (put .nBuf [1, 0, 0, 0, 1, 0, 0, 0] (State.resetOf { width := 8, base := 0 }))) =
        some (((put .nBuf [1, 0, 0, 0, 1, 0, 0, 0] (State.resetOf { width := 8, base := 0 })).setN0inv
          0xFFFFFFFF).setErr 0) := by decide
    revert h
    generalize exec .n0inv _ = r
    intro h
    cases r with
    | next t => cases h; rfl
    | fault f => cases h
    | refused f => cases h
  · cases x with
    | byte off => rfl
    | _ => exact hx.elim

/-- A failed command and an illegal word. -/
theorem witness_FailedCommandsWriteOnlyErr :
    (issueCommand 5 blank = .next (blank.setErr 3) ∧ (blank.setErr 3).err ≠ 0) ∧
      (issueCommand 0x100 blank = .next (blank.setErr 4) ∧ (blank.setErr 4).err ≠ 0) :=
  ⟨⟨rfl, by decide⟩, rfl, by decide⟩

/-- A completing run of each command, and an illegal word. -/
theorem witness_EveryOutcomeCodeHasItsCause :
    exec .loadN (blank.setBeLen 9) = .next ((blank.setBeLen 9).setErr 5) ∧
      (nextOf (exec .n0inv key)).isSome ∧ exec .n0inv zeroKey = .next (zeroKey.setErr 1) ∧
      exec .rr zeroKey = .next (zeroKey.setErr 1) ∧
      exec .encode fields = .next (((put .recBuf record fields).setRecValid 20).setErr 0) ∧
      exec .decode (received 19) = .next ((received 19).setErr 3) ∧
      exec .convert zeroKey = .next (zeroKey.setErr 1) ∧
      (decode 0 = .error .unknownOpcode ∧ issueCommand 0 blank = .next (blank.setErr 4)) ∧ (blank.setErr 4).err ≠ 0 :=
  ⟨rfl, by decide, rfl, rfl, rfl, rfl, rfl, ⟨rfl, rfl⟩, by decide⟩

theorem witness_CommandsAreIdempotent :
    fields.Inv ∧ exec .encode fields = .next (((put .recBuf record fields).setRecValid 20).setErr 0) :=
  ⟨inv_fields, rfl⟩

/-- N0INV with its four bytes written, and without. -/
theorem witness_CommandsStopOnlyOnUnwrittenOperands :
    key.cfg.Legal ∧ (∀ off, readsItem key .n0inv (.byte off) → (key.mem.read? off).isSome) ∧
      exec .n0inv blank = .fault (.unwrittenByte 0x1000) := by
  refine ⟨by decide, fun off hx => ?_, rfl⟩
  obtain ⟨h1, h2⟩ := hx
  simp only [bufBase] at h1 h2
  interval_cases off <;> rfl

/-- A read, with the reset input showing "released". -/
theorem witness_OnlyWritesAndResetChangeTheBlock :
    let s := (atLine (rd 0x008 0) key).setResetIn [false]
    (nextOf (step s)).isSome ∧ s.resetIn.head? ≠ some true ∧
      ∀ a v, s.host.prog[s.host.line]? ≠ some (.wr a v) :=
  ⟨by decide, by decide, fun a v h => by cases h⟩

/-- A failed command changes ERR, and so does a reset. -/
theorem witness_OnlyCommandsAndResetChangeStatus :
    (nextOf (step (atLine (cmd .decode) blank))).map (·.err) = some 3 ∧ (atLine (cmd .decode) blank).err = 0 ∧
      (nextOf (step ((blank.setErr 3).setResetIn [true]))).map (·.err) = some 0 ∧
      ((blank.setErr 3).setResetIn [true]).err = 3 := by decide

theorem witness_StepKeepsTheBuild : (nextOf (step (atLine (wr 0x008 0x100) blank))).isSome := by decide

theorem witness_InvariantHoldsAtReset : build4.Legal ∧ buildMax.Legal := by decide

/-- A step that runs a command which stores. -/
theorem witness_StepKeepsTheInvariant :
    (atLine (cmd .encode) fields).Inv ∧ (nextOf (step (atLine (cmd .encode) fields))).isSome :=
  ⟨inv_of (by decide) (by decide) (by decide) (by decide), by decide⟩

theorem witness_StepKeepsWordsWhole :
    (atLine (wr 0x4004 1) key).Inv ∧ (atLine (wr 0x4004 1) key).WholeWords ∧
      (nextOf (step (atLine (wr 0x4004 1) key))).isSome :=
  ⟨inv_of (by decide) (by decide) (by decide) (by decide),
    storesIn_whole (storesIn_buffer (c := build4) (by decide) [] .nBuf (bs := [0xA1, 0x0C, 0x00, 0x00]) rfl)
      fun _ => rfl,
    by decide⟩

/-- The last word of each buffer of the widest build. -/
theorem witness_BuffersAreWholeWordsAndApart :
    buildMax.Legal ∧ (0x17F4 % 4 = 0 ∧ inBuf buildMax .nBuf 0x17F4) ∧ (0x3FF8 % 4 = 0 ∧ inBuf buildMax .recBuf 0x3FF8) ∧
      0x4FEC % 4 = 0 ∧ inBuf buildMax .beBuf 0x4FEC := by decide

end Sys2Proof.Tests
end

section
/-! PROOFS. The command word: decoding and encoding are inverse to each other (30_encoding.md R83, R85), and an illegal
word only raises IllegalCommand (R84, 60_exceptions.md R184). -/

namespace Sys2Proof

/-- Every command's own encoding facts, as one family. -/
theorem encodingStatement : ∀ i : Instr, Laws.Encoding.Statement i
  | .loadN => Laws.Encoding.loadN
  | .n0inv => Laws.Encoding.n0inv
  | .rr => Laws.Encoding.rr
  | .encode => Laws.Encoding.encode
  | .decode => Laws.Encoding.decode
  | .convert => Laws.Encoding.convert

@[simp] theorem decode_encode (i : Instr) : decode (encode i) = .ok i := by
  obtain ⟨-, hdec, -, -⟩ := encodingStatement i
  exact hdec

/-- What the decoder checks of a legal word, field by field (30_encoding.md R84). -/
theorem fields_of_decode_ok {v : Word} {i : Instr} (h : decode v = .ok i) :
    rsvdField v = 0 ∧ opcodeMap (opcField v) = some i := by
  unfold decode at h
  split at h
  · cases h
  next hrsvd =>
    split at h
    next j hmap =>
      cases h
      exact ⟨not_not.mp hrsvd, hmap⟩
    · cases h

/-- A word that decodes is the encoder's: both of its fields are fixed. -/
theorem eq_encode_of_decode_ok {v : Word} {i : Instr} (h : decode v = .ok i) : v = encode i := by
  obtain ⟨hrsvd, hmap⟩ := fields_of_decode_ok h
  calc v = rsvdField v ++ opcField v := (word_eq_fields v).symm
    _ = encode i := by rw [hrsvd, opcodeMap_eq_some hmap, encode]

theorem decode_eq_ok_iff (v : Word) (i : Instr) : decode v = .ok i ↔ v = encode i :=
  ⟨eq_encode_of_decode_ok, fun h => h ▸ decode_encode i⟩

/-- On a 32-bit row, the host's reading of the opcode table is the decoder's (30_encoding.md R81). -/
theorem decodeTableWord_eq_some_iff {w : Nat} (hw : w < 2 ^ 32) (i : Instr) :
    decodeTableWord 32 w = some i ↔ decode (BitVec.ofNat 32 w) = .ok i := by
  simp only [decodeTableWord, Nat.mod_eq_of_lt hw, if_pos hw]
  cases decode (BitVec.ofNat 32 w) <;> simp

theorem ofNat_eq_encode_iff {w : Nat} (hw : w < 2 ^ 32) (i : Instr) :
    BitVec.ofNat 32 w = encode i ↔ w = (encode i).toNat := by
  rw [← BitVec.toNat_inj, BitVec.toNat_ofNat, Nat.mod_eq_of_lt hw]

/-- The command words are the numbers 1 to 6 (30_encoding.md R83). -/
theorem encode_toNat_range (i : Instr) : 1 ≤ (encode i).toNat ∧ (encode i).toNat ≤ 6 := by
  cases i <;> decide

/-- A word with a reserved bit set, or with an opcode outside the map, is no command's word (30_encoding.md R84). -/
theorem ne_encode_of_illegal {v : Word} (h : v.toNat / 256 ≠ 0 ∨ v.toNat % 256 = 0 ∨ 7 ≤ v.toNat % 256) (i : Instr) :
    v ≠ encode i := by
  rintro rfl
  obtain ⟨hlo, hhi⟩ := encode_toNat_range i
  omega

theorem exists_decode_error {v : Word} (h : ∀ i, v ≠ encode i) : ∃ e, decode v = .error e := by
  cases hd : decode v with
  | error e => exact ⟨e, rfl⟩
  | ok i => exact absurd (eq_encode_of_decode_ok hd) (h i)

namespace Machine

/-- Command issue of an illegal word (60_exceptions.md R184). -/
theorem issueCommand_of_decode_error {v : Word} {e : DecodeError} (h : decode v = .error e) (s : State) :
    issueCommand v s = .next (s.setErr 4) := by
  rw [issueCommand, h]
  rfl

/-- A CMD write is command issue (40_host_interface.md R101). -/
theorem transact_write_cmd {v : Word} {s t : State} (h : issueCommand v s = .next t) :
    transact (.write (Access.word32 0x000) v) s = (t, .done) := by
  obtain ⟨hcmd, -⟩ := windowMap_registers s.cfg
  rw [transact_write_mapped v rfl hcmd, writeTarget, h]

end Machine

/-- Settles O12: the decoder fixes both fields of a command word, so it is the encoder's inverse, and the numbering of
the opcode table reads the same words. -/
theorem decodeAndEncodeAgree : Obligations.DecodeAndEncodeAgree := by
  refine ⟨decode_eq_ok_iff, fun w i hw => ?_, rfl, rfl, rfl, rfl, rfl, rfl⟩
  calc decodeTableWord 32 w = some i ↔ decode (BitVec.ofNat 32 w) = .ok i := decodeTableWord_eq_some_iff hw i
    _ ↔ BitVec.ofNat 32 w = encode i := decode_eq_ok_iff _ i
    _ ↔ w = (encode i).toNat := ofNat_eq_encode_iff hw i

/-- Settles O11: an illegal word is no command's word, so it decodes to an error, and its CMD write raises
IllegalCommand alone. -/
theorem illegalWordsOnlyRaiseErrorFour : Obligations.IllegalWordsOnlyRaiseErrorFour := by
  intro s v hill
  obtain ⟨e, he⟩ := exists_decode_error (ne_encode_of_illegal hill)
  exact ⟨⟨e, he⟩, Machine.transact_write_cmd (Machine.issueCommand_of_decode_error he s)⟩

end Sys2Proof
end

section
/-! PROOFS. A command's result is a function of what it reads (40_host_interface.md R107): each command's lines, taken
in two runs that read the same. -/

namespace Sys2Proof.Machine

/-- Two states hold the same in every item of a set. -/
def SameOn (p : Item → Prop) (s t : State) : Prop := ∀ x, p x → sameItem s t x

/-- The command ends alike from both states: with the same ERR and, on success, the same value of everything it
writes, or with the same fault. -/
def SameOutcome (i : Instr) (s₁ s₂ : State) : Prop :=
  (∀ t₁, exec i s₁ = .next t₁ →
    ∃ t₂, exec i s₂ = .next t₂ ∧ t₁.err = t₂.err ∧ (t₁.err = 0 → SameOn (writesItem s₁.cfg i) t₁ t₂)) ∧
  ∀ f, exec i s₁ = .fault f → exec i s₂ = .fault f

/-! The fault line of each command: what it answers when a byte it reads was never written
(70_reset_and_hazards.md R201). -/

section
variable {s : State} {f : Fault}

theorem execLoadN_unwritten (h : s.beLen.toNat ≤ s.cfg.beCap) (hf : loadBuf s .beBuf 0 s.beLen.toNat = .error f) :
    execLoadN s = .fault f := by
  rw [execLoadN, if_neg (by omega), hf, withBytes_error]

theorem execN0inv_unwritten (hf : loadBuf s .nBuf 0 4 = .error f) : execN0inv s = .fault f := by
  rw [execN0inv, hf, withBytes_error]

theorem execRr_unwritten (hf : loadBuf s .nBuf 0 s.cfg.width = .error f) : execRr s = .fault f := by
  rw [execRr, hf, withBytes_error]

theorem execEncode_unwritten_modulus (hf : loadBuf s .nBuf 0 s.cfg.width = .error f) : execEncode s = .fault f := by
  rw [execEncode, hf, withBytes_error]

theorem execEncode_unwritten_rr {n : List Byte} (hn : loadBuf s .nBuf 0 s.cfg.width = .ok n)
    (hf : loadBuf s .rrBuf 0 s.cfg.width = .error f) : execEncode s = .fault f := by
  rw [execEncode, hn, withBytes_ok, hf, withBytes_error]

theorem execDecode_unwritten (h : s.cfg.recLen ≤ s.recValid.toNat)
    (hf : loadBuf s .recBuf 0 s.cfg.recLen = .error f) : execDecode s = .fault f := by
  rw [execDecode, if_neg (by omega), hf, withBytes_error]

theorem execConvert_unwritten_low (hf : loadBuf s .nBuf 0 4 = .error f) : execConvert s = .fault f := by
  rw [execConvert, hf, withBytes_error]

theorem execConvert_unwritten_high {low : List Byte} (hl : loadBuf s .nBuf 0 4 = .ok low)
    (hp : leValue low % 2 = 1) (hf : loadBuf s .nBuf 0 s.cfg.width = .error f) : execConvert s = .fault f := by
  rw [execConvert, hl, withBytes_ok, if_neg (by omega), hf, withBytes_error]

end

/-! Two runs side by side: one rule per way to end, and the rules for reading and storing a buffer. -/

section
variable {i : Instr} {s₁ s₂ : State}

theorem sameOutcome_of_fault {f : Fault} (h₁ : exec i s₁ = .fault f) (h₂ : exec i s₂ = .fault f) :
    SameOutcome i s₁ s₂ := by
  refine ⟨fun t₁ ht => ?_, fun g hg => ?_⟩
  · cases h₁.symm.trans ht
  · cases h₁.symm.trans hg
    exact h₂

theorem sameOutcome_of_next {t₁ t₂ : State} (h₁ : exec i s₁ = .next t₁) (h₂ : exec i s₂ = .next t₂)
    (herr : t₁.err = t₂.err) (h : t₁.err = 0 → SameOn (writesItem s₁.cfg i) t₁ t₂) : SameOutcome i s₁ s₂ := by
  refine ⟨fun t ht => ?_, fun g hg => ?_⟩
  · cases h₁.symm.trans ht
    exact ⟨t₂, h₂, herr, h⟩
  · cases h₁.symm.trans hg

theorem sameOutcome_of_raise {e : BitVec 4} (he : e ≠ 0) (h₁ : exec i s₁ = .next (s₁.setErr e))
    (h₂ : exec i s₂ = .next (s₂.setErr e)) : SameOutcome i s₁ s₂ :=
  sameOutcome_of_next h₁ h₂ rfl fun h0 => absurd h0 he

/-- ERR is among what every command writes, so agreement on what is written includes it. -/
theorem sameOutcome_of_sameWrites {t₁ t₂ : State} (h₁ : exec i s₁ = .next t₁) (h₂ : exec i s₂ = .next t₂)
    (h : SameOn (writesItem s₁.cfg i) t₁ t₂) : SameOutcome i s₁ s₂ :=
  sameOutcome_of_next h₁ h₂ (h .err (by cases i <;> trivial)) fun _ => h

/-- A buffer read depends on the bytes of its range alone. -/
theorem loadBuf_congr {b : Buffer} {n : Nat}
    (h : ∀ off, bufBase b ≤ off ∧ off < bufBase b + n → sameItem s₁ s₂ (.byte off)) :
    loadBuf s₂ b 0 n = loadBuf s₁ b 0 n :=
  Memory.readBytes_congr fun j hj => (h (bufBase b + 0 + j) (by omega)).symm

/-- Storing the same whole buffer keeps agreement on a byte, and gives it inside that buffer. -/
theorem sameItem_byte_storeBuf {c : Config} {b : Buffer} {bs : List Byte} {off : Nat} (hl : bs.length = bufSize c b)
    (h : ¬ inBuf c b off → sameItem s₁ s₂ (.byte off)) :
    sameItem (storeBuf s₁ b 0 bs) (storeBuf s₂ b 0 bs) (.byte off) := by
  simp only [sameItem, storeBuf, State.setMem_mem, Memory.read?_write, hl, Nat.add_zero]
  by_cases hin : inBuf c b off
  · rw [if_pos hin, if_pos hin]
  · rw [if_neg hin, if_neg hin]
    exact h hin

end

/-! Each command, line by line of what it can answer. -/

section
variable {s₁ s₂ : State}

theorem n0inv_sameOutcome (h : SameOn (readsItem s₁ .n0inv) s₁ s₂) : SameOutcome .n0inv s₁ s₂ := by
  have hload : loadBuf s₂ .nBuf 0 4 = loadBuf s₁ .nBuf 0 4 := loadBuf_congr fun off => h (.byte off)
  rcases execN0inv_cases s₁ with ⟨f, hf, he⟩ | ⟨low, hlow, ⟨hp, he⟩ | ⟨hp, he⟩⟩
  · exact sameOutcome_of_fault he (execN0inv_unwritten (hload.trans hf))
  · exact sameOutcome_of_raise (by decide) he (execN0inv_even (hload.trans hlow) hp)
  · refine sameOutcome_of_sameWrites he (execN0inv_odd (hload.trans hlow) hp) fun x hx => ?_
    cases x with
    | err => rfl
    | n0inv => rfl
    | _ => exact hx.elim

variable (hc : s₁.cfg = s₂.cfg)
include hc

theorem loadN_sameOutcome (h : SameOn (readsItem s₁ .loadN) s₁ s₂) : SameOutcome .loadN s₁ s₂ := by
  have hlen : s₁.beLen = s₂.beLen := h .beLen trivial
  have hread (hfit : s₁.beLen.toNat ≤ s₁.cfg.beCap) : s₂.beLen.toNat ≤ s₂.cfg.beCap ∧
      loadBuf s₂ .beBuf 0 s₂.beLen.toNat = loadBuf s₁ .beBuf 0 s₁.beLen.toNat := by
    rw [← hc, ← hlen]
    exact ⟨hfit, loadBuf_congr fun off hoff => h (.byte off) ⟨hfit, hoff⟩⟩
  rcases execLoadN_cases s₁ with ⟨hlong, he⟩ | ⟨hfit, f, hf, he⟩ | ⟨hfit, be, hbe, hval⟩
  · rw [hc, hlen] at hlong
    exact sameOutcome_of_raise (by decide) he (execLoadN_tooLong hlong)
  · obtain ⟨hfit₂, hload⟩ := hread hfit
    exact sameOutcome_of_fault he (execLoadN_unwritten hfit₂ (hload.trans hf))
  obtain ⟨hfit₂, hload⟩ := hread hfit
  rcases hval with ⟨hv, he⟩ | ⟨hv, he⟩
  · rw [hc] at hv
    exact sameOutcome_of_raise (by decide) he (execLoadN_tooWide hfit₂ (hload.trans hbe) hv)
  · have he₂ := execLoadN_fits hfit₂ (hload.trans hbe) (hc ▸ hv)
    rw [← hc] at he₂
    refine sameOutcome_of_sameWrites he he₂ fun x hx => ?_
    cases x with
    | err => rfl
    | byte off => exact sameItem_byte_storeBuf (by simp [bufSize]) fun hout => absurd hx hout
    | _ => exact hx.elim

theorem rr_sameOutcome (h : SameOn (readsItem s₁ .rr) s₁ s₂) : SameOutcome .rr s₁ s₂ := by
  have hload : loadBuf s₂ .nBuf 0 s₂.cfg.width = loadBuf s₁ .nBuf 0 s₁.cfg.width := by
    rw [← hc]
    exact loadBuf_congr fun off => h (.byte off)
  rcases execRr_cases s₁ with ⟨f, hf, he⟩ | ⟨n, hn, ⟨hz, he⟩ | ⟨hz, he⟩⟩
  · exact sameOutcome_of_fault he (execRr_unwritten (hload.trans hf))
  · exact sameOutcome_of_raise (by decide) he (execRr_zero (hload.trans hn) hz)
  · have he₂ := execRr_nonzero (hload.trans hn) hz
    rw [← hc] at he₂
    refine sameOutcome_of_sameWrites he he₂ fun x hx => ?_
    cases x with
    | err => rfl
    | byte off => exact sameItem_byte_storeBuf (by simp [bufSize]) fun hout => absurd hx hout
    | _ => exact hx.elim

theorem encode_sameOutcome (h : SameOn (readsItem s₁ .encode) s₁ s₂) : SameOutcome .encode s₁ s₂ := by
  have hmsw : s₁.msw = s₂.msw := h .msw trivial
  have hn0inv : s₁.n0inv = s₂.n0inv := h .n0inv trivial
  have hexp : s₁.exp = s₂.exp := h .exp trivial
  have hloadN : loadBuf s₂ .nBuf 0 s₂.cfg.width = loadBuf s₁ .nBuf 0 s₁.cfg.width := by
    rw [← hc]
    exact loadBuf_congr fun off hoff => h (.byte off) (.inl hoff)
  have hloadRr : loadBuf s₂ .rrBuf 0 s₂.cfg.width = loadBuf s₁ .rrBuf 0 s₁.cfg.width := by
    rw [← hc]
    exact loadBuf_congr fun off hoff => h (.byte off) (.inr hoff)
  rcases execEncode_cases s₁ with ⟨f, hf | ⟨⟨n, hn⟩, hf⟩, he⟩ | ⟨n, rr, hn, hrr, he⟩
  · exact sameOutcome_of_fault he (execEncode_unwritten_modulus (hloadN.trans hf))
  · exact sameOutcome_of_fault he (execEncode_unwritten_rr (hloadN.trans hn) (hloadRr.trans hf))
  · have he₂ := execEncode_ok (hloadN.trans hn) (hloadRr.trans hrr)
    rw [← hc, ← hmsw, ← hn0inv, ← hexp] at he₂
    have hlen : (recordBytes s₁.msw s₁.n0inv n rr s₁.exp).length = bufSize s₁.cfg .recBuf := by
      simp [bufSize, Config.recLen, loadBuf_length hn, loadBuf_length hrr]
      omega
    refine sameOutcome_of_sameWrites he he₂ fun x hx => ?_
    cases x with
    | err => rfl
    | recValid => rfl
    | byte off => exact sameItem_byte_storeBuf hlen fun hout => absurd hx hout
    | _ => exact hx.elim

theorem decode_sameOutcome (h : SameOn (readsItem s₁ .decode) s₁ s₂) : SameOutcome .decode s₁ s₂ := by
  have hvalid : s₁.recValid = s₂.recValid := h .recValid trivial
  have hread (hwhole : s₁.cfg.recLen ≤ s₁.recValid.toNat) : s₂.cfg.recLen ≤ s₂.recValid.toNat ∧
      loadBuf s₂ .recBuf 0 s₂.cfg.recLen = loadBuf s₁ .recBuf 0 s₁.cfg.recLen := by
    rw [← hc, ← hvalid]
    exact ⟨hwhole, loadBuf_congr fun off hoff => h (.byte off) ⟨hwhole, hoff⟩⟩
  rcases execDecode_cases s₁ with ⟨hshort, he⟩ | ⟨hwhole, f, hf, he⟩ | ⟨hwhole, r, hr, he⟩
  · rw [hc, hvalid] at hshort
    exact sameOutcome_of_raise (by decide) he (execDecode_short hshort)
  · obtain ⟨hwhole₂, hload⟩ := hread hwhole
    exact sameOutcome_of_fault he (execDecode_unwritten hwhole₂ (hload.trans hf))
  · obtain ⟨hwhole₂, hload⟩ := hread hwhole
    have hrlen : r.length = 12 + 2 * s₁.cfg.width := loadBuf_length hr
    have he₂ := execDecode_whole hwhole₂ (hload.trans hr)
    rw [← hc] at he₂
    refine sameOutcome_of_sameWrites he he₂ fun x hx => ?_
    cases x with
    | err => rfl
    | msw => rfl
    | n0inv => rfl
    | exp => rfl
    | byte off =>
      refine sameItem_byte_storeBuf (c := s₁.cfg) (slice_length (by omega)) fun houtRr => ?_
      refine sameItem_byte_storeBuf (c := s₁.cfg) (slice_length (by omega)) fun houtN => ?_
      exact absurd hx (not_or.mpr ⟨houtN, houtRr⟩)
    | _ => exact hx.elim

theorem convert_sameOutcome (hl : s₁.cfg.Legal) (h : SameOn (readsItem s₁ .convert) s₁ s₂) :
    SameOutcome .convert s₁ s₂ := by
  have hexp : s₁.exp = s₂.exp := h .exp trivial
  have hloadN : loadBuf s₂ .nBuf 0 s₂.cfg.width = loadBuf s₁ .nBuf 0 s₁.cfg.width := by
    rw [← hc]
    exact loadBuf_congr fun off => h (.byte off)
  have hloadLow : loadBuf s₂ .nBuf 0 4 = loadBuf s₁ .nBuf 0 4 := by
    obtain ⟨-, hfour, -⟩ := hl
    exact loadBuf_congr fun off ⟨hlo, hhi⟩ => h (.byte off) ⟨hlo, by rw [bufSize]; omega⟩
  rcases execConvert_cases s₁ with ⟨f, hf, he⟩ | ⟨low, hlow, ⟨hp, he⟩ | ⟨hp, ⟨f, hf, he⟩ | ⟨n, hn, he⟩⟩⟩
  · exact sameOutcome_of_fault he (execConvert_unwritten_low (hloadLow.trans hf))
  · exact sameOutcome_of_raise (by decide) he (execConvert_even (hloadLow.trans hlow) hp)
  · exact sameOutcome_of_fault he (execConvert_unwritten_high (hloadLow.trans hlow) hp (hloadN.trans hf))
  · have he₂ := execConvert_odd (hloadLow.trans hlow) hp (hloadN.trans hn)
    rw [← hc, ← hexp] at he₂
    generalize (BitVec.ofNat 32 (montN0inv (leValue low)) : Word) = a at he he₂
    generalize montRr s₁.cfg.width (leValue n) = r at he he₂
    have hlen : (recordBytes (BitVec.ofNat 32 s₁.cfg.mswVal) a n (leBytes r s₁.cfg.width) s₁.exp).length =
        bufSize s₁.cfg .recBuf := by
      simp [bufSize, Config.recLen, loadBuf_length hn]
      omega
    refine sameOutcome_of_sameWrites he he₂ fun x hx => ?_
    cases x with
    | err => rfl
    | n0inv => rfl
    | msw => rfl
    | recValid => rfl
    | byte off =>
      refine sameItem_byte_storeBuf hlen fun houtRec => ?_
      refine sameItem_byte_storeBuf (c := s₁.cfg) (leBytes_length r _) fun houtRr => ?_
      exact absurd hx (not_or.mpr ⟨houtRr, houtRec⟩)
    | _ => exact hx.elim

end

/-- Settles O25, command by command: which line a command answers by is decided by what it reads, and what it stores
fills every buffer it writes. -/
theorem commandsReadOnlyTheirColumns : Obligations.CommandsReadOnlyTheirColumns := by
  intro i s₁ s₂ hl hc h
  cases i with
  | loadN => exact loadN_sameOutcome hc h
  | n0inv => exact n0inv_sameOutcome h
  | rr => exact rr_sameOutcome hc h
  | encode => exact encode_sameOutcome hc h
  | decode => exact decode_sameOutcome hc h
  | convert => exact convert_sameOutcome hc hl h

end Sys2Proof.Machine
end

section
/-! PROOFS. The Montgomery commands follow their rules (41_montgomery.md R124, R130, R131, R136, R137): the outcome
code first, then the stored result, then what stays as it was. -/

namespace Sys2Proof.Machine

/-- `w` bytes hold the values below `2^(8w)`: the bound as the rules write it and as the byte strings have it
(log entry 17). -/
theorem two_pow_eight_mul (w : Nat) : 2 ^ (8 * w) = 256 ^ w := pow_mul 2 8 w

/-- A store of a whole buffer leaves every byte outside that buffer. -/
theorem read?_storeBuf_outside {s : State} {b : Buffer} {bs : List Byte} {a : Nat} (hl : bs.length = bufSize s.cfg b)
    (ha : ¬ inBuf s.cfg b a) : (storeBuf s b 0 bs).mem.read? a = s.mem.read? a := by
  rw [inBuf, ← hl] at ha
  exact Memory.read?_write_outside ha

/-- The frame of a command that succeeds with one whole buffer stored: every other register, what lies outside the
block and every byte outside the buffer stay as they were. -/
theorem storeBuf_frame {s t : State} {b : Buffer} {bs : List Byte} (hl : bs.length = bufSize s.cfg b)
    (ht : t = (storeBuf s b 0 bs).setErr 0) :
    t.err = 0 ∧ t.n0inv = s.n0inv ∧ t.exp = s.exp ∧ t.msw = s.msw ∧ t.recValid = s.recValid ∧
      t.beLen = s.beLen ∧ sameOutside s t ∧ ∀ a, ¬ inBuf s.cfg b a → t.mem.read? a = s.mem.read? a := by
  subst ht
  exact ⟨rfl, rfl, rfl, rfl, rfl, rfl, ⟨rfl, rfl, rfl⟩, fun _ ha => read?_storeBuf_outside hl ha⟩

/-- The four low bytes of N_BUF are the modulus modulo 2^32 (41_montgomery.md R130). -/
theorem leValue_mod_of_loadBuf_low {s : State} {low n : List Byte} (hw : 4 ≤ s.cfg.width)
    (hlow : loadBuf s .nBuf 0 4 = .ok low) (hn : loadBuf s .nBuf 0 s.cfg.width = .ok n) :
    leValue n % 2 ^ 32 = leValue low := by
  have htake : low = n.take 4 := Except.ok.inj (hlow.symm.trans (loadBuf_low hw hn))
  have hlt := leValue_lt low
  rw [loadBuf_length hlow, ← two_pow_eight_mul] at hlt
  rw [leValue_take_four, ← htake, Nat.mod_eq_of_lt hlt]

/-- The Montgomery constant fits its register. -/
theorem montN0inv_word (t : Nat) : (BitVec.ofNat 32 (montN0inv t) : Word).toNat = montN0inv t :=
  Nat.mod_eq_of_lt (montN0inv_lt t)

/-- Settles O15: each of LOAD_N's three lines in the rule's order, the last one read back from N_BUF. -/
theorem loadNFollowsItsRule : Obligations.LoadNFollowsItsRule := by
  intro s
  refine ⟨execLoadN_tooLong, fun be hlen hbe => ?_⟩
  rw [two_pow_eight_mul]
  refine ⟨execLoadN_tooWide hlen hbe, fun hv => ?_⟩
  have hbytes := leBytes_length (beValue be) s.cfg.width
  exact ⟨_, _, execLoadN_fits hlen hbe hv, loadBuf_storeBuf_same s .nBuf 0 hbytes, leValue_leBytes_of_lt hv,
    storeBuf_frame hbytes rfl⟩

/-- Settles O16: the low word decides the parity, and for an odd one the Montgomery constant is the only word with the
rule's product, since an odd factor cancels modulo 2^32. -/
theorem n0invFollowsItsRule : Obligations.N0invFollowsItsRule := by
  intro s low hlow
  refine ⟨fun n ⟨_, hw, _⟩ hn => leValue_mod_of_loadBuf_low hw hlow hn, execN0inv_even hlow, fun hodd => ?_⟩
  have hprod := montN0inv_mul hodd
  rw [← montN0inv_word] at hprod
  refine ⟨_, execN0inv_odd hlow hodd, hprod, ?_, fun y hy => ?_⟩
  · rw [montN0inv_word, montN0inv_odd hodd]
  · exact BitVec.eq_of_toNat_eq (odd_mul_cancel hodd y.isLt (BitVec.isLt _) (hy.trans hprod.symm))

/-- Settles O17: a residue is below its modulus, so it fits RR_BUF and reads back whole. -/
theorem rrFollowsItsRule : Obligations.RrFollowsItsRule := by
  intro s n hn
  refine ⟨execRr_zero hn, fun hnz => ?_⟩
  have hlt : montRr s.cfg.width (leValue n) < leValue n := montRr_lt s.cfg.width hnz
  have hfits : leValue n < 256 ^ s.cfg.width := loadBuf_length hn ▸ leValue_lt n
  have hbytes := leBytes_length (montRr s.cfg.width (leValue n)) s.cfg.width
  have hread := leValue_leBytes_of_lt (hlt.trans hfits)
  exact ⟨_, _, execRr_nonzero hn hnz, loadBuf_storeBuf_same s .rrBuf 0 hbytes, hread, hread.trans_lt hlt,
    storeBuf_frame hbytes rfl⟩

end Sys2Proof.Machine
end

section
/-! PROOFS. The codec commands follow their rules (42_codec.md R150, R151, R153): the record ENCODE stores fills
REC_BUF, and the two buffers DECODE stores lie apart. -/

namespace Sys2Proof.Machine

/-- Four bytes make a word: their value fits a scalar register (42_codec.md R150). -/
theorem leValue_word {bs : List Byte} (h : bs.length = 4) :
    (BitVec.ofNat 32 (leValue bs) : Word).toNat = leValue bs := by
  have hlt : leValue bs < 256 ^ 4 := h ▸ leValue_lt bs
  exact Nat.mod_eq_of_lt hlt

/-- A record of full-width fields is as long as REC_BUF. -/
theorem recordBytes_length_eq_bufSize {c : Config} {n rr : List Byte} (hn : n.length = c.width)
    (hrr : rr.length = c.width) (msw n0inv exp : Word) :
    (recordBytes msw n0inv n rr exp).length = bufSize c .recBuf := by
  rw [recordBytes_length, hn, hrr, bufSize, Config.recLen]
  omega

/-- A store into RR_BUF leaves N_BUF as it reads: no legal width reaches from one buffer into the next
(20_memory.md R62). -/
theorem loadBuf_nBuf_storeBuf_rrBuf {s : State} {w : Nat} (hw : w ≤ 2040) (bs : List Byte) :
    loadBuf (storeBuf s .rrBuf 0 bs) .nBuf 0 w = loadBuf s .nBuf 0 w :=
  loadBuf_storeBuf_apart s (.inl (by simp only [bufBase]; omega))

/-- Settles O18: the stored record fills REC_BUF, so each field reads back at its offset and no byte outside REC_BUF
moves. -/
theorem encodeFollowsItsRule : Obligations.EncodeFollowsItsRule := by
  intro s n rr hl hn hrr
  have hnlen := loadBuf_length hn
  have hrrlen := loadBuf_length hrr
  have hlen := recordBytes_length_eq_bufSize hnlen hrrlen s.msw s.n0inv s.exp
  have hstored := loadBuf_storeBuf_same s .recBuf 0 hlen
  obtain ⟨hmsw, hn0inv, hmod, hres, hexp⟩ := loadBuf_record_fields hnlen hrrlen hstored
  exact ⟨_, execEncode_ok hn hrr, hmsw, hn0inv, hmod, hres, hexp, recLen_word hl, rfl, rfl, rfl, rfl, rfl,
    ⟨rfl, rfl, rfl⟩, fun _ ha => read?_storeBuf_outside hlen ha⟩

/-- Settles O19: a short record is TruncatedInput; a whole one gives every field a slice of the record, of the length
of the register or buffer it goes to. -/
theorem decodeFollowsItsRule : Obligations.DecodeFollowsItsRule := by
  intro s ⟨_, _, hw⟩
  refine ⟨execDecode_short, fun r hvalid hr => ?_⟩
  have hrlen := loadBuf_length hr
  have hword {a : Nat} (ha : a + 4 ≤ 12 + 2 * s.cfg.width) : (slice r a 4).length = 4 := slice_length (by omega)
  have hn : (slice r 8 s.cfg.width).length = s.cfg.width := slice_length (by omega)
  have hrr : (slice r (8 + s.cfg.width) s.cfg.width).length = s.cfg.width := slice_length (by omega)
  refine ⟨_, execDecode_whole hvalid hr, leValue_word (hword (by omega)), leValue_word (hword (by omega)), ?_,
    loadBuf_storeBuf_same _ .rrBuf 0 hrr, leValue_word (hword (by omega)), rfl, rfl, rfl, ⟨rfl, rfl, rfl⟩, ?_⟩
  · exact (loadBuf_nBuf_storeBuf_rrBuf hw _).trans (loadBuf_storeBuf_same _ .nBuf 0 hn)
  · intro a haN haRr
    exact (read?_storeBuf_outside (s := storeBuf s .nBuf 0 _) hrr haRr).trans (read?_storeBuf_outside hn haN)

end Sys2Proof.Machine
end

section
/-! PROOFS. CONVERT follows its rule (43_convert.md R170): the parity of the modulus is its low word's, and what an odd
modulus gets is ENCODE's record of the state that already holds both Montgomery parameters and the word count. -/

namespace Sys2Proof.Machine

/-- `s` with the constant `a` in N0INV, the residue bytes `r` in RR_BUF and the build's word count in MSW, which is what
CONVERT's record is made of (43_convert.md R170). -/
def withParameters (s : State) (a : Word) (r : List Byte) : State :=
  (storeBuf (s.setN0inv a) .rrBuf 0 r).setMsw (BitVec.ofNat 32 s.cfg.mswVal)

section
variable (s : State) (a : Word) (r : List Byte)

@[simp] theorem withParameters_cfg : (withParameters s a r).cfg = s.cfg := rfl
@[simp] theorem withParameters_n0inv : (withParameters s a r).n0inv = a := rfl
@[simp] theorem withParameters_exp : (withParameters s a r).exp = s.exp := rfl
@[simp] theorem withParameters_msw : (withParameters s a r).msw = BitVec.ofNat 32 s.cfg.mswVal := rfl

/-- The parameters leave the modulus as it reads, in a legal build. -/
theorem loadBuf_nBuf_withParameters (hl : s.cfg.Legal) :
    loadBuf (withParameters s a r) .nBuf 0 s.cfg.width = loadBuf s .nBuf 0 s.cfg.width := by
  obtain ⟨-, -, hw⟩ := hl
  exact loadBuf_nBuf_storeBuf_rrBuf hw r

theorem loadBuf_rrBuf_withParameters {w : Nat} (hr : r.length = w) :
    loadBuf (withParameters s a r) .rrBuf 0 w = .ok r :=
  loadBuf_storeBuf_same (s.setN0inv a) .rrBuf 0 hr

/-- The parameters change no byte outside RR_BUF. -/
theorem read?_withParameters_outside (hr : r.length = s.cfg.width) {off : Nat} (hoff : ¬ inBuf s.cfg .rrBuf off) :
    (withParameters s a r).mem.read? off = s.mem.read? off :=
  read?_storeBuf_outside (s := s.setN0inv a) hr hoff

end

section
variable {s t : State} {n : List Byte}

/-- The low word that the parity check reads is the modulus modulo 2^32 (43_convert.md R170). -/
theorem loadBuf_low_of_modulus (hl : s.cfg.Legal) (hn : loadBuf s .nBuf 0 s.cfg.width = .ok n) :
    loadBuf s .nBuf 0 4 = .ok (n.take 4) ∧ leValue n % 2 ^ 32 = leValue (n.take 4) := by
  obtain ⟨-, hfour, -⟩ := hl
  have hlow := loadBuf_low hfour hn
  exact ⟨hlow, leValue_mod_of_loadBuf_low hfour hlow hn⟩

theorem execEncode_withParameters (hl : s.cfg.Legal) (hn : loadBuf s .nBuf 0 s.cfg.width = .ok n) (a : Word)
    {r : List Byte} (hr : r.length = s.cfg.width) :
    execEncode (withParameters s a r) =
      .next (((storeBuf (withParameters s a r) .recBuf 0
        (recordBytes (BitVec.ofNat 32 s.cfg.mswVal) a n r s.exp)).setRecValid
          (BitVec.ofNat 32 s.cfg.recLen)).setErr 0) :=
  execEncode_ok ((loadBuf_nBuf_withParameters s a r hl).trans hn) (loadBuf_rrBuf_withParameters s a r hr)

/-- CONVERT of an odd modulus is ENCODE of the state that holds the Montgomery constant and the residue. -/
theorem execConvert_eq_execEncode (hl : s.cfg.Legal) (hn : loadBuf s .nBuf 0 s.cfg.width = .ok n)
    (hodd : leValue n % 2 = 1) :
    ∃ a r, a.toNat * leValue n % 2 ^ 32 = 2 ^ 32 - 1 ∧ r.length = s.cfg.width ∧
      leValue r = 2 ^ (16 * s.cfg.width) % leValue n ∧ execConvert s = execEncode (withParameters s a r) := by
  obtain ⟨hlow, hmod⟩ := loadBuf_low_of_modulus hl hn
  have hlowOdd : leValue (n.take 4) % 2 = 1 := by omega
  have hlt : montRr s.cfg.width (leValue n) < leValue n := montRr_lt s.cfg.width (by omega)
  have hfits : leValue n < 256 ^ s.cfg.width := loadBuf_length hn ▸ leValue_lt n
  have hbytes := leBytes_length (montRr s.cfg.width (leValue n)) s.cfg.width
  refine ⟨BitVec.ofNat 32 (montN0inv (leValue (n.take 4))), _, ?_, hbytes,
    leValue_leBytes_of_lt (hlt.trans hfits), ?_⟩
  · rw [montN0inv_word, ← Nat.mul_mod_mod, hmod, montN0inv_mul hlowOdd]
  · rw [execConvert_odd hlow hlowOdd hn, execEncode_withParameters hl hn _ hbytes, withParameters]

/-- Two states that differ in REC_BUF alone read the same in RR_BUF, in a legal build (20_memory.md R62). -/
theorem loadBuf_rrBuf_of_recBuf_frame {c : Config} (hl : c.Legal)
    (h : ∀ off, ¬ inBuf c .recBuf off → t.mem.read? off = s.mem.read? off) :
    loadBuf t .rrBuf 0 c.width = loadBuf s .rrBuf 0 c.width := by
  refine Memory.readBytes_congr fun i hi => h _ fun hrec => ?_
  have hrr : inBuf c .rrBuf (bufBase .rrBuf + 0 + i) := ⟨by omega, by rw [bufSize]; omega⟩
  cases inBuf_unique hl hrr hrec

end

/-- Settles O20: the low word decides the parity, and for an odd modulus ENCODE's rule, taken at the state that holds
the parameters, gives the record and the frame. -/
theorem convertFollowsItsRule : Obligations.ConvertFollowsItsRule := by
  intro s n hl hn
  refine ⟨fun heven => ?_, fun hodd => ?_⟩
  · obtain ⟨hlow, hmod⟩ := loadBuf_low_of_modulus hl hn
    exact execConvert_even hlow (by omega)
  · obtain ⟨a, r, hconst, hrlen, hresidue, hconvert⟩ := execConvert_eq_execEncode hl hn hodd
    have hres := loadBuf_rrBuf_withParameters s a r hrlen
    obtain ⟨t, hencode, hmsw, hn0inv, hmodulus, hrr, hexp, hvalid, herr, hn0invKept, hexpKept, hmswKept, hbeLen,
      houtside, hframe⟩ := encodeFollowsItsRule (withParameters s a r) n r hl
        ((loadBuf_nBuf_withParameters s a r hl).trans hn) hres
    rw [withParameters_n0inv] at hn0inv hn0invKept
    rw [withParameters_msw, mswVal_word hl] at hmsw
    subst hn0invKept
    refine ⟨t, r, hconvert.trans hencode, hconst, (loadBuf_rrBuf_of_recBuf_frame hl hframe).trans hres, hresidue, ?_,
      hmsw, hn0inv, hmodulus, hrr, hexp, hvalid, herr, hexpKept, hbeLen, houtside, fun off hoffRr hoffRec => ?_⟩
    · rw [hmswKept, withParameters_msw, mswVal_word hl]
    · exact (hframe off hoffRec).trans (read?_withParameters_outside s _ r hrlen hoffRr)

end Sys2Proof.Machine
end

section
/-! PROOFS. Bus errors (60_exceptions.md R187): an access the block does not take or does not map is one, by
`bad_access`, and no mapped target answers with one. -/

namespace Sys2Proof.Machine

/-- A mapped offset's only failed read is of a never-written byte. -/
theorem readTarget_ne_busError (s : State) (g : Target) (o : Nat) : readTarget s g ≠ .error (.busError o) := by
  cases g with
  | buf b i =>
    intro h
    simp only [readTarget] at h
    split at h
    · cases h
    next f hf =>
      obtain ⟨j, -, hbyte, -⟩ := loadBuf_error hf
      cases h
      cases hbyte
  | _ => nofun

/-- A command's only fault is a never-written byte, so its issue is no bus error. -/
theorem issueCommand_ne_busError (v : Word) (s : State) (o : Nat) : issueCommand v s ≠ .fault (.busError o) := by
  intro h
  rcases issueCommand_cases v s with he | ⟨i, -, he⟩ <;> rw [he] at h
  · cases h
  · obtain ⟨off, hbyte, -⟩ := exec_stops.2 _ h
    cases hbyte

theorem writeTarget_ne_busError (v : Word) (s : State) (g : Target) (o : Nat) :
    writeTarget v s g ≠ .fault (.busError o) := by
  cases g with
  | cmd => exact issueCommand_ne_busError v s o
  | _ => nofun

section
variable {s : State} {a : Access}

theorem memRead_mapped {g : Target} (ht : a.takes) (hg : windowMap s.cfg a.off = some g) :
    memRead a s = readTarget s g := by
  rw [memRead, if_pos ht, hg]

theorem memWrite_mapped {g : Target} (v : Word) (ht : a.takes) (hg : windowMap s.cfg a.off = some g) :
    memWrite a v s = writeTarget v s g := by
  rw [memWrite, if_pos ht, hg]

/-- A taken access at a mapped offset ends in no bus error. -/
theorem transact_mapped_ne_busError (v : Word) (ht : a.takes) (hm : Mapped s.cfg a.off) (o : Nat) :
    (transact (.read a) s).2 ≠ .failed (.busError o) ∧ (transact (.write a v) s).2 ≠ .failed (.busError o) := by
  have ⟨_, _, haligned⟩ := ht
  obtain ⟨g, hg⟩ := Option.isSome_iff_exists.mp ((windowMap_isSome_iff haligned).mpr hm)
  have hread := readTarget_ne_busError s g o
  have hwrite := writeTarget_ne_busError v s g o
  rw [← memRead_mapped ht hg] at hread
  rw [← memWrite_mapped v ht hg] at hwrite
  simp only [transact]
  constructor
  · cases hr : memRead a s with
    | ok w => nofun
    | error f => rintro ⟨⟩; exact hread hr
  · cases hw : memWrite a v s with
    | next t => nofun
    | fault f => rintro ⟨⟩; exact hwrite hw
    | refused r => nofun

/-- A bus error of the host's line is a fault of the host's step (log entry 4). -/
theorem step_bad_access {v : Word} {k : Fin 8} (hl : s.cfg.Legal) (hwin : a.off < 0x5000)
    (hbad : ¬ a.takes ∨ ¬ Mapped s.cfg a.off) (hr : s.resetIn.head? ≠ some true)
    (hline : s.host.prog[s.host.line]? = some (.wr a v) ∨ s.host.prog[s.host.line]? = some (.rd a k)) :
    step s = .fault (.busError a.off) := by
  obtain ⟨hread, hwrite⟩ := bad_access (s := s.setResetIn s.resetIn.tail) v hbad
  rcases hline with hx | hx
  · rw [step_line hl hr hx, runLine, hostWrite_in v hwin, hwrite]
  · rw [step_line hl hr hx, runLine, hostRead_in k hwin, hread]

end

/-- Settles O6: an access that is turned away answers with the bus error alone, and every other one ends otherwise. -/
theorem busErrorsAreExactAndChangeNothing : Obligations.BusErrorsAreExactAndChangeNothing := by
  intro s a v k hl hwin
  refine ⟨fun x hx => ?_, step_bad_access hl hwin⟩
  by_cases hbad : ¬ a.takes ∨ ¬ Mapped s.cfg a.off
  · obtain ⟨hread, hwrite⟩ := bad_access v hbad
    have hfail : transact x s = (s, .failed (.busError a.off)) := by
      rcases hx with rfl | rfl
      · exact hread
      · exact hwrite
    rw [hfail]
    refine ⟨⟨fun _ => hbad, fun _ => ⟨a.off, rfl⟩⟩, ?_⟩
    rintro o ⟨⟩
    exact ⟨rfl, rfl⟩
  · obtain ⟨ht, hm⟩ := not_or.mp hbad
    have hne (o : Nat) : (transact x s).2 ≠ .failed (.busError o) := by
      obtain ⟨hread, hwrite⟩ := transact_mapped_ne_busError v (not_not.mp ht) (not_not.mp hm) o
      rcases hx with rfl | rfl
      · exact hread
      · exact hwrite
    exact ⟨⟨fun ⟨o, ho⟩ => absurd ho (hne o), fun h => absurd h hbad⟩, fun o ho => absurd ho (hne o)⟩

end Sys2Proof.Machine
end

section
/-! PROOFS. The outcome codes (60_exceptions.md R180, R181): each command ends by its checks, a failed check raises its
code and changes nothing else, and an illegal word raises IllegalCommand. -/

namespace Sys2Proof.Machine

/-- A command that started in `s` and ended in `t` ended by one check: where `cause` holds, `raise Error(c)` is all it
did, and elsewhere it succeeded. -/
def EndsByCheck (s t : State) (c : ErrCode) (cause : Prop) : Prop :=
  (cause ∧ t = raiseError c s) ∨ (¬ cause ∧ t.err = 0)

/-- A command that started in `s` and ended in `t` succeeded, or did nothing but raise an error. -/
def OkOrRaised (s t : State) : Prop := t.err = 0 ∨ ∃ c : ErrCode, c ≠ .ok ∧ t = raiseError c s

theorem errCodeBits_ne_zero {c : ErrCode} (hc : c ≠ .ok) : errCodeBits c ≠ 0 := by
  cases c with
  | ok => exact absurd rfl hc
  | _ => simp [errCodeBits]

section
variable {s t : State} {c : ErrCode} {cause : Prop}

theorem EndsByCheck.okOrRaised (h : EndsByCheck s t c cause) (hc : c ≠ .ok) : OkOrRaised s t := by
  rcases h with ⟨-, ht⟩ | ⟨-, herr⟩
  · exact .inr ⟨c, hc, ht⟩
  · exact .inl herr

/-- One check's row of the outcome table. -/
theorem EndsByCheck.row (h : EndsByCheck s t c cause) (hc : c ≠ .ok) :
    (t.err = errCodeBits c ↔ cause) ∧ (t.err = 0 ∨ t.err = errCodeBits c) := by
  rcases h with ⟨hcause, rfl⟩ | ⟨hcause, herr⟩
  · exact ⟨⟨fun _ => hcause, fun _ => rfl⟩, .inr rfl⟩
  · have hne := (errCodeBits_ne_zero hc).symm
    exact ⟨⟨fun h => absurd (herr.symm.trans h) hne, fun h => absurd h hcause⟩, .inl herr⟩

end

/-! The causes, byte by byte. -/

/-- The low byte of the modulus is written and even (41_montgomery.md R130, 43_convert.md R170). -/
def LowByteEven (s : State) : Prop := ∃ b, s.mem.read? (bufBase .nBuf) = some b ∧ b.toNat % 2 = 0

/-- The presented value does not fit the modulus width (41_montgomery.md R124). -/
def ValueTooWide (s : State) : Prop :=
  ∃ be, loadBuf s .beBuf 0 s.beLen.toNat = .ok be ∧ 2 ^ (8 * s.cfg.width) ≤ beValue be

/-- The parity of a little-endian value is its first byte's. -/
theorem leValue_cons_mod_two (b : Byte) (bs : List Byte) : leValue (b :: bs) % 2 = b.toNat % 2 := by
  rw [leValue]
  omega

theorem leValue_eq_zero_iff (bs : List Byte) : leValue bs = 0 ↔ ∀ i, i < bs.length → bs[i]? = some 0 := by
  induction bs with
  | nil => simp [leValue]
  | cons b bs ih =>
    have hb : b.toNat = 0 ↔ b = 0 := by simp [← BitVec.toNat_inj]
    rw [leValue, Nat.add_eq_zero_iff, mul_eq_zero_iff_left (by norm_num), ih, hb]
    constructor
    · rintro ⟨rfl, htail⟩ i hi
      cases i with
      | zero => rfl
      | succ i => exact htail i (by simpa using hi)
    · intro h
      exact ⟨by simpa using h 0 (by simp), fun i hi => by simpa using h (i + 1) (by simpa using hi)⟩

section
variable {s : State}

theorem leValue_low_even_iff {low : List Byte} (h : loadBuf s .nBuf 0 4 = .ok low) :
    leValue low % 2 = 0 ↔ LowByteEven s := by
  obtain ⟨hlen, hbytes⟩ := Memory.readBytes_eq_ok_iff.mp h
  cases low with
  | nil => cases hlen
  | cons b bs =>
    have hfirst : s.mem.read? (bufBase .nBuf) = some b := hbytes 0 (by omega)
    simp [LowByteEven, hfirst, leValue_cons_mod_two]

theorem leValue_modulus_eq_zero_iff {n : List Byte} (h : loadBuf s .nBuf 0 s.cfg.width = .ok n) :
    leValue n = 0 ↔ ∀ i, i < s.cfg.width → s.mem.read? (bufBase .nBuf + i) = some 0 := by
  obtain ⟨hlen, hbytes⟩ := Memory.readBytes_eq_ok_iff.mp h
  rw [leValue_eq_zero_iff, hlen]
  exact forall₂_congr fun i hi => by rw [← hbytes i hi, Nat.add_zero]

theorem valueTooWide_iff {be : List Byte} (h : loadBuf s .beBuf 0 s.beLen.toNat = .ok be) :
    256 ^ s.cfg.width ≤ beValue be ↔ ValueTooWide s := by
  simp [ValueTooWide, h, two_pow_eight_mul]

end

/-! How each command that completes ended. -/

section
variable {s t : State}

theorem execLoadN_ends (h : execLoadN s = .next t) :
    (s.cfg.beCap < s.beLen.toNat ∧ t = raiseError .badLength s) ∨
      (s.beLen.toNat ≤ s.cfg.beCap ∧ EndsByCheck s t .sizeMismatch (ValueTooWide s)) := by
  rcases execLoadN_cases s with ⟨hlong, he⟩ | ⟨-, f, -, he⟩ | ⟨hfit, be, hbe, ⟨hv, he⟩ | ⟨hv, he⟩⟩ <;>
    cases he.symm.trans h
  · exact .inl ⟨hlong, rfl⟩
  · exact .inr ⟨hfit, .inl ⟨(valueTooWide_iff hbe).mp hv, rfl⟩⟩
  · exact .inr ⟨hfit, .inr ⟨(valueTooWide_iff hbe).not.mp hv.not_ge, rfl⟩⟩

theorem execN0inv_ends (h : execN0inv s = .next t) : EndsByCheck s t .invalidModulus (LowByteEven s) := by
  rcases execN0inv_cases s with ⟨f, -, he⟩ | ⟨low, hlow, ⟨hp, he⟩ | ⟨hp, he⟩⟩ <;> cases he.symm.trans h
  · exact .inl ⟨(leValue_low_even_iff hlow).mp hp, rfl⟩
  · exact .inr ⟨(leValue_low_even_iff hlow).not.mp (by omega), rfl⟩

theorem execRr_ends (h : execRr s = .next t) :
    EndsByCheck s t .invalidModulus (∀ i, i < s.cfg.width → s.mem.read? (bufBase .nBuf + i) = some 0) := by
  rcases execRr_cases s with ⟨f, -, he⟩ | ⟨n, hn, ⟨hz, he⟩ | ⟨hz, he⟩⟩ <;> cases he.symm.trans h
  · exact .inl ⟨(leValue_modulus_eq_zero_iff hn).mp hz, rfl⟩
  · exact .inr ⟨(leValue_modulus_eq_zero_iff hn).not.mp hz, rfl⟩

theorem execEncode_ends (h : execEncode s = .next t) : t.err = 0 := by
  rcases execEncode_cases s with ⟨f, -, he⟩ | ⟨n, rr, -, -, he⟩ <;> cases he.symm.trans h
  rfl

theorem execDecode_ends (h : execDecode s = .next t) :
    EndsByCheck s t .truncatedInput (s.recValid.toNat < s.cfg.recLen) := by
  rcases execDecode_cases s with ⟨hshort, he⟩ | ⟨-, f, -, he⟩ | ⟨hwhole, r, -, he⟩ <;> cases he.symm.trans h
  · exact .inl ⟨hshort, rfl⟩
  · exact .inr ⟨hwhole.not_gt, rfl⟩

theorem execConvert_ends (h : execConvert s = .next t) : EndsByCheck s t .invalidModulus (LowByteEven s) := by
  rcases execConvert_cases s with ⟨f, -, he⟩ | ⟨low, hlow, ⟨hp, he⟩ | ⟨hp, ⟨f, -, he⟩ | ⟨n, -, he⟩⟩⟩ <;>
    have ht := he.symm.trans h
  · cases ht
  · cases ht
    exact .inl ⟨(leValue_low_even_iff hlow).mp hp, rfl⟩
  · cases ht
  · refine .inr ⟨(leValue_low_even_iff hlow).not.mp (by omega), ?_⟩
    injection ht with ht
    rw [← ht, State.setErr_err]

/-- A command that completes succeeded, or did nothing but raise an error. -/
theorem exec_okOrRaised {i : Instr} (h : exec i s = .next t) : OkOrRaised s t := by
  cases i with
  | loadN =>
    rcases execLoadN_ends h with ⟨-, ht⟩ | ⟨-, hend⟩
    · exact .inr ⟨.badLength, nofun, ht⟩
    · exact hend.okOrRaised (by decide)
  | n0inv => exact (execN0inv_ends h).okOrRaised (by decide)
  | rr => exact (execRr_ends h).okOrRaised (by decide)
  | encode => exact .inl (execEncode_ends h)
  | decode => exact (execDecode_ends h).okOrRaised (by decide)
  | convert => exact (execConvert_ends h).okOrRaised (by decide)

theorem issueCommand_okOrRaised {v : Word} (h : issueCommand v s = .next t) : OkOrRaised s t := by
  rcases issueCommand_cases v s with he | ⟨i, -, he⟩
  · cases he.symm.trans h
    exact .inr ⟨.illegalCommand, nofun, rfl⟩
  · exact exec_okOrRaised (he.symm.trans h)

/-- LOAD_N's two rows of the outcome table, BadLength first (41_montgomery.md R124). -/
theorem execLoadN_rows (h : execLoadN s = .next t) :
    (t.err = 5 ↔ s.cfg.beCap < s.beLen.toNat) ∧ (t.err = 2 ↔ s.beLen.toNat ≤ s.cfg.beCap ∧ ValueTooWide s) ∧
      (t.err = 0 ∨ t.err = 2 ∨ t.err = 5) := by
  rcases execLoadN_ends h with ⟨hlong, rfl⟩ | ⟨hfit, ⟨hwide, rfl⟩ | ⟨hwide, herr⟩⟩
  · simp [errCodeBits, hlong]
  · simp [errCodeBits, hfit, hwide]
  · simp [herr, hfit, hwide]

/-- A read of STATUS gives the code with zeros above (10_state.md R24). -/
theorem transact_read_status (s : State) :
    transact (.read (Access.word32 0x004)) s = (s, .data (s.err.zeroExtend 32)) := by
  obtain ⟨-, hstatus, -⟩ := windowMap_registers s.cfg
  rw [transact_read_mapped rfl hstatus, readTarget, statusWord]

end

/-- Settles O26: a command that ends with a nonzero code only raised it, and its CMD write is done all the same. -/
theorem failedCommandsWriteOnlyErr : Obligations.FailedCommandsWriteOnlyErr := by
  refine ⟨fun _ _ => rfl, fun v s t h herr => ?_⟩
  rcases issueCommand_okOrRaised h with h0 | ⟨c, hc, rfl⟩
  · exact absurd h0 herr
  · exact ⟨transact_write_cmd h, rfl, transact_read_status _, c, hc, rfl⟩

/-- Settles O27, row by row: each command's checks give its codes, and a nonzero code is all that a raise leaves. -/
theorem everyOutcomeCodeHasItsCause : Obligations.EveryOutcomeCodeHasItsCause := by
  intro s t
  refine ⟨execLoadN_rows, fun h => (execN0inv_ends h).row (by decide), fun h => (execRr_ends h).row (by decide),
    execEncode_ends, fun h => (execDecode_ends h).row (by decide), fun h => (execConvert_ends h).row (by decide),
    fun v e he h => ?_, fun i h herr => ?_⟩
  · cases (issueCommand_of_decode_error he s).symm.trans h
    rfl
  · rcases exec_okOrRaised h with h0 | ⟨c, -, rfl⟩
    · exact absurd h0 herr
    · rfl

end Sys2Proof.Machine
end

section
/-! PROOFS. What every step keeps (10_state.md section 2, 20_memory.md sections 1 and 5): memory only ever changes by a
reset or by whole-word stores inside one buffer, and ERR and the build follow the same cases. -/

namespace Sys2Proof.Machine

/-- One induction for every property of the buffers: what holds of empty memory, and is kept by a store inside a buffer,
is kept by every step. -/
theorem step_keeps_mem {s t : State} {P : Memory → Prop} (hs : s.Inv) (h : step s = .next t) (hempty : P [])
    (hstore : ∀ m m', P m → StoresIn s.cfg m m' → P m') (hmem : P s.mem) : P t.mem := by
  obtain ⟨-, -, hreset | hsame | hone | ⟨m, hfirst, hsecond⟩⟩ := step_effect hs.legal hs.errLegal h
  · exact hreset ▸ hempty
  · exact hsame ▸ hmem
  · exact hstore _ _ hmem hone
  · exact hstore _ _ (hstore _ _ hmem hfirst) hsecond

/-- Settles O34: a store keeps memory canonical and inside the buffers, and the step's cases give the rest. -/
theorem stepKeepsTheInvariant : Obligations.StepKeepsTheInvariant := by
  intro s t hs h
  obtain ⟨hcfg, herr, -⟩ := step_effect hs.legal hs.errLegal h
  have hmem : Memory.wf t.mem = true ∧ ∀ c ∈ t.mem, ∃ b, inBuf s.cfg b c.1 :=
    step_keeps_mem (P := fun m => Memory.wf m = true ∧ ∀ c ∈ m, ∃ b, inBuf s.cfg b c.1) hs h (by simp)
      (fun _ _ ⟨hwf, hin⟩ hst => storesIn_keeps hst hwf hin) ⟨hs.memWf, hs.memInBufs⟩
  exact ⟨hcfg ▸ hs.legal, hmem.1, hcfg ▸ hmem.2, herr⟩

/-- Settles O35: a store covers whole bus words, so no word is left half written. -/
theorem stepKeepsWordsWhole : Obligations.StepKeepsWordsWhole := by
  intro s t hs hw h
  exact step_keeps_mem (P := fun m => ∀ a, (m.read? a).isSome = (m.read? (a - a % 4)).isSome) hs h (fun _ => rfl)
    (fun _ _ hm hst => storesIn_whole hst hm) hw

/-- Settles O33: a reset leaves no byte specified and ERR 0, in any build. -/
theorem invariantHoldsAtReset : Obligations.InvariantHoldsAtReset := by
  have hreset (c : Config) (hl : c.Legal) : (State.resetOf c).Inv := ⟨hl, rfl, by simp, by simp⟩
  exact ⟨fun c hl => ⟨hreset c hl, fun _ => rfl⟩, hreset Config.reference (by decide)⟩

/-! The build and STATUS.ERR, write by write. -/

section
variable {s t : State} {a : Access} {v : Word}

theorem memWrite_cfg (hl : s.cfg.Legal) (h : memWrite a v s = .next t) : t.cfg = s.cfg := by
  obtain ⟨-, ⟨-, hissue⟩ | rfl | ⟨-, rfl⟩ | ⟨-, rfl⟩ | ⟨-, rfl⟩ | ⟨-, rfl⟩ | ⟨-, rfl⟩ | ⟨b, -, rfl⟩⟩ :=
    memWrite_cases h
  · rcases issueCommand_cases v s with he | ⟨i, -, he⟩
    · cases he.symm.trans hissue
      rfl
    · obtain ⟨⟨hcfg, -⟩, -⟩ := exec_effect hl (he.symm.trans hissue)
      exact hcfg
  all_goals rfl

/-- Only a write to CMD changes STATUS.ERR (10_state.md R24). -/
theorem memWrite_changes_err (h : memWrite a v s = .next t) (hne : t.err ≠ s.err) : a.takes ∧ a.off = 0x000 := by
  obtain ⟨htakes, ⟨hoff, -⟩ | rfl | ⟨-, rfl⟩ | ⟨-, rfl⟩ | ⟨-, rfl⟩ | ⟨-, rfl⟩ | ⟨-, rfl⟩ | ⟨b, -, rfl⟩⟩ :=
    memWrite_cases h
  · exact ⟨htakes, hoff⟩
  all_goals exact absurd rfl hne

/-- The offset the block sees is the one the host line names (20_memory.md R60). -/
theorem windowOffset_base_add {c : Config} {off o : Nat} (h : windowOffset c (c.base + off) = some o) : o = off := by
  unfold windowOffset at h
  split at h
  · cases h
    omega
  · cases h

end

/-- Settles O32: reset, the host and every write leave the build. -/
theorem stepKeepsTheBuild : Obligations.StepKeepsTheBuild := by
  intro s t h
  obtain ⟨hl, ⟨rest, -, rfl⟩ | ⟨-, hstep⟩⟩ := step_cases h
  · rfl
  · rcases hostStep_cases hstep with ⟨g, rfl⟩ | ⟨a, v, o, s', -, -, hwrite, rfl⟩
    · rfl
    · exact memWrite_cfg (s := s.setResetIn s.resetIn.tail) (t := s') hl hwrite

/-- Settles O31: of the lines the host can run, only a write reaches the block, and of the writes only CMD's reaches
ERR. -/
theorem onlyCommandsAndResetChangeStatus : Obligations.OnlyCommandsAndResetChangeStatus := by
  intro s t h hne
  obtain ⟨-, ⟨rest, hr, -⟩ | ⟨-, hstep⟩⟩ := step_cases h
  · exact .inl (by rw [hr]; rfl)
  · rcases hostStep_cases hstep with ⟨g, rfl⟩ | ⟨a, v, o, s', hline, hwin, hwrite, rfl⟩
    · exact absurd rfl hne
    · obtain ⟨⟨hbytes, hlanes, -⟩, hoff⟩ := memWrite_changes_err hwrite hne
      exact .inr ⟨a, v, hline, (windowOffset_base_add hwin).symm.trans hoff, hbytes, hlanes⟩

/-- Settles O30: a host line that is no write only moves the host. -/
theorem onlyWritesAndResetChangeTheBlock : Obligations.OnlyWritesAndResetChangeTheBlock := by
  intro s t h hr hline
  obtain ⟨-, ⟨rest, hrest, -⟩ | ⟨-, hstep⟩⟩ := step_cases h
  · exact absurd (by rw [hrest]; rfl) hr
  · rcases hostStep_cases hstep with ⟨g, rfl⟩ | ⟨a, v, o, s', hwr, -⟩
    · rfl
    · exact absurd hwr (hline a v)

/-! Reset (70_reset_and_hazards.md R200). -/

theorem step_reset {s : State} {rest : List Bool} (hl : s.cfg.Legal) (hr : s.resetIn = true :: rest) :
    step s = .next ((blockReset s).setResetIn rest) := by
  rw [step, if_pos hl, hr]

/-- Settles O1: the reset event and the power-up state are one table, the host apart. -/
theorem resetLeavesTheTabledState : Obligations.ResetLeavesTheTabledState := by
  refine ⟨fun s rest hl hr => ?_, fun c => ?_, Config.reference, by decide, rfl⟩
  · exact ⟨_, step_reset hl hr, rfl, rfl, rfl, rfl, rfl, rfl, rfl, fun _ => rfl, rfl, rfl⟩
  · exact ⟨rfl, rfl, rfl, rfl, rfl, rfl, rfl, fun _ => rfl⟩

/-- Settles O2: the reset state is made of the build, the host and the reset input alone; an illegal build is refused
by its width. -/
theorem resetForgetsWhatCameBefore : Obligations.ResetForgetsWhatCameBefore := by
  intro s₁ s₂ rest hcfg hhost hr₁ hr₂
  by_cases hl : s₁.cfg.Legal
  · rw [step_reset hl hr₁, step_reset (hcfg ▸ hl) hr₂, blockReset, blockReset, hcfg, hhost, hr₁, hr₂]
  · rw [step, step, ← hcfg, if_neg hl, if_neg hl]

end Sys2Proof.Machine
end

section
/-! PROOFS. The two transactions, word by word of the window map (20_memory.md R61, 40_host_interface.md R100, R101):
what a mapped word reads as, what a write of it leaves, and what other words read as afterwards. -/

namespace Sys2Proof.Machine

section
variable {s t : State} {off : Nat} {g : Target} {v : Word}

theorem transact_read_ok (h4 : off % 4 = 0) (hg : windowMap s.cfg off = some g) (hr : readTarget s g = .ok v) :
    transact (.read (Access.word32 off)) s = (s, .data v) := by
  rw [transact_read_mapped h4 hg, hr]

theorem transact_read_error {f : Fault} (h4 : off % 4 = 0) (hg : windowMap s.cfg off = some g)
    (hr : readTarget s g = .error f) : transact (.read (Access.word32 off)) s = (s, .failed f) := by
  rw [transact_read_mapped h4 hg, hr]

theorem transact_write_next (h4 : off % 4 = 0) (hg : windowMap s.cfg off = some g)
    (hw : writeTarget v s g = .next t) : transact (.write (Access.word32 off) v) s = (t, .done) := by
  rw [transact_write_mapped v h4 hg, hw]

theorem transact_write_fault {f : Fault} (h4 : off % 4 = 0) (hg : windowMap s.cfg off = some g)
    (hw : writeTarget v s g = .fault f) : transact (.write (Access.word32 off) v) s = (s, .failed f) := by
  rw [transact_write_mapped v h4 hg, hw]

/-- A read's answer depends on the build and on the word's own target alone. -/
theorem transact_read_congr (h4 : off % 4 = 0) (hc : t.cfg = s.cfg)
    (h : ∀ g, windowMap s.cfg off = some g → readTarget t g = readTarget s g) :
    (transact (.read (Access.word32 off)) t).2 = (transact (.read (Access.word32 off)) s).2 := by
  by_cases hm : Mapped s.cfg off
  · obtain ⟨g, hg⟩ := Option.isSome_iff_exists.mp ((windowMap_isSome_iff h4).mpr hm)
    have hread := h g hg
    cases hr : readTarget s g with
    | ok v => rw [transact_read_ok h4 (hc ▸ hg) (hread.trans hr), transact_read_ok h4 hg hr]
    | error f => rw [transact_read_error h4 (hc ▸ hg) (hread.trans hr), transact_read_error h4 hg hr]
  · rw [transact_read_unmapped h4 (hc ▸ hm), transact_read_unmapped h4 hm]

end

/-! What the two read-only constants and a buffer word read as. -/

/-- A legal width fits CONFIG's field (10_state.md R25). -/
theorem configWord_eq {s : State} (hl : s.cfg.Legal) : configWord s = BitVec.ofNat 32 s.cfg.width := by
  obtain ⟨-, -, hw⟩ := hl
  apply BitVec.eq_of_toNat_eq
  simp only [configWord, BitVec.truncate_eq_setWidth, BitVec.toNat_setWidth, BitVec.toNat_ofNat]
  omega

section
variable {s : State} {b : Buffer} {i : Nat}

theorem readTarget_buf_ok {bs : List Byte} (h : loadBuf s b i 4 = .ok bs) :
    readTarget s (.buf b i) = .ok (BitVec.ofNat 32 (leValue bs)) := by
  rw [readTarget, h]

theorem readTarget_buf_error {f : Fault} (h : loadBuf s b i 4 = .error f) : readTarget s (.buf b i) = .error f := by
  rw [readTarget, h]

theorem bufBase_add_aligned (hi : i % 4 = 0) : (bufBase b + i) % 4 = 0 := by
  rw [Nat.add_mod, bufBase_aligned, hi]

end

/-- Settles O3: each row of the window map reads as its target, and what is no row is a bus error. -/
theorem readGivesWhatTheWindowMapSays : Obligations.ReadGivesWhatTheWindowMapSays := by
  intro s hl
  obtain ⟨hcmd, hstatus, hconfig, hrecLen, hn0inv, hexp, hmsw, hrecValid, hbeLen⟩ := windowMap_registers s.cfg
  refine ⟨fun a ha => (bad_access 0 (.inl ha)).1, transact_read_ok rfl hcmd rfl, transact_read_status s,
    transact_read_ok rfl hconfig (congrArg _ (configWord_eq hl)), transact_read_ok rfl hrecLen rfl,
    transact_read_ok rfl hn0inv rfl, transact_read_ok rfl hexp rfl, transact_read_ok rfl hmsw rfl,
    transact_read_ok rfl hrecValid rfl, transact_read_ok rfl hbeLen rfl, fun b i hi hlt => ?_,
    fun off h4 hm => transact_read_unmapped h4 hm⟩
  have h4 := bufBase_add_aligned (b := b) hi
  have hbuf := windowMap_buf hl hlt
  exact ⟨fun bs hbs => ⟨_, transact_read_ok h4 hbuf (readTarget_buf_ok hbs), leValue_word (loadBuf_length hbs)⟩,
    fun f hf => transact_read_error h4 hbuf (readTarget_buf_error hf)⟩

/-! What a write leaves. -/

theorem issueCommand_of_decode_ok {v : Word} {i : Instr} (h : decode v = .ok i) (s : State) :
    issueCommand v s = exec i s := by
  rw [issueCommand, h]

theorem leValue_leBytes_word (v : Word) : leValue (leBytes v.toNat 4) = v.toNat :=
  leValue_leBytes_of_lt v.isLt

/-- Settles O4: each row of the window map is written as its target, CMD's write being its command's issue. -/
theorem writeStoresWhatTheWindowMapSays : Obligations.WriteStoresWhatTheWindowMapSays := by
  intro s v hl
  obtain ⟨hcmd, hstatus, hconfig, hrecLen, hn0inv, hexp, hmsw, hrecValid, hbeLen⟩ := windowMap_registers s.cfg
  refine ⟨fun a ha => (bad_access v (.inl ha)).2,
    fun e he => transact_write_cmd (issueCommand_of_decode_error he s), fun i hi => ?_,
    transact_write_next rfl hstatus rfl, transact_write_next rfl hconfig rfl, transact_write_next rfl hrecLen rfl,
    transact_write_next rfl hn0inv rfl, transact_write_next rfl hexp rfl, transact_write_next rfl hmsw rfl,
    transact_write_next rfl hrecValid rfl, transact_write_next rfl hbeLen rfl, fun b i hi hlt => ?_,
    fun off h4 hm => transact_write_unmapped v h4 hm⟩
  · have hissue := issueCommand_of_decode_ok hi s
    exact ⟨fun t ht => transact_write_cmd (hissue.trans ht),
      fun f hf => transact_write_fault rfl hcmd (hissue.trans hf)⟩
  · refine ⟨_, _, transact_write_next (bufBase_add_aligned hi) (windowMap_buf hl hlt) rfl,
      loadBuf_storeBuf_same s b i (leBytes_length _ 4), leValue_leBytes_word v, rfl, fun a ha => ?_⟩
    exact Memory.read?_write_outside (by rwa [leBytes_length])

/-! Words apart from each other. -/

/-- The window offset of a target (20_memory.md R61). -/
def targetOffset : Target → Nat
  | .cmd => 0x000
  | .status => 0x004
  | .config => 0x008
  | .recLen => 0x00C
  | .n0inv => 0x010
  | .exp => 0x014
  | .msw => 0x018
  | .recValid => 0x01C
  | .beLen => 0x020
  | .buf b i => bufBase b + i

/-- The window map takes a target's own offset to it. -/
theorem targetOffset_of_windowMap {c : Config} {off : Nat} {g : Target} (h : windowMap c off = some g) :
    targetOffset g = off := by
  rcases windowMap_cases h with ⟨rfl, rfl⟩ | ⟨rfl, rfl⟩ | ⟨rfl, rfl⟩ | ⟨rfl, rfl⟩ | ⟨rfl, rfl⟩ | ⟨rfl, rfl⟩ |
    ⟨rfl, rfl⟩ | ⟨rfl, rfl⟩ | ⟨rfl, rfl⟩ | ⟨b, ⟨hlo, -⟩, rfl⟩
  iterate 9 rfl
  exact Nat.add_sub_cancel' hlo

section
variable {s t : State} {v : Word} {g g' : Target}

/-- A write to a read-write register or a buffer word is done, leaves the build and is read back. -/
theorem writeTarget_readBack (s : State) (v : Word) (h : 0x010 ≤ targetOffset g) :
    ∃ t, writeTarget v s g = .next t ∧ t.cfg = s.cfg ∧ readTarget t g = .ok v := by
  cases g with
  | cmd => exact absurd h (by decide)
  | status => exact absurd h (by decide)
  | config => exact absurd h (by decide)
  | recLen => exact absurd h (by decide)
  | buf b i =>
    refine ⟨_, rfl, rfl, ?_⟩
    rw [readTarget_buf_ok (loadBuf_storeBuf_same s b i (leBytes_length _ 4)), word_of_leBytes]
  | _ => exact ⟨_, rfl, rfl, rfl⟩

/-- A write other than a command's issue leaves every word apart from its own as it reads. -/
theorem readTarget_writeTarget_apart (hw : writeTarget v s g = .next t) (hcmd : g ≠ .cmd)
    (hapart : targetOffset g' + 4 ≤ targetOffset g ∨ targetOffset g + 4 ≤ targetOffset g') :
    readTarget t g' = readTarget s g' := by
  have hne : g' ≠ g := by
    rintro rfl
    omega
  cases g with
  | cmd => exact absurd rfl hcmd
  | buf b i =>
    cases hw
    cases g' with
    | buf c j =>
      have hload : loadBuf (storeBuf s b i (leBytes v.toNat 4)) c j 4 = loadBuf s c j 4 :=
        loadBuf_storeBuf_apart s (by rwa [leBytes_length])
      rw [readTarget, readTarget, hload]
    | _ => rfl
  | _ =>
    cases hw
    cases g' <;> simp_all [readTarget, statusWord, configWord, recLenWord]

end

/-- Settles O5: two words of the window are four bytes apart, so a write of one is not seen in the other. -/
theorem writtenWordReadsBackAndOthersStay : Obligations.WrittenWordReadsBackAndOthersStay := by
  intro s v off hl h4 hlo hm
  obtain ⟨g, hg⟩ := Option.isSome_iff_exists.mp ((windowMap_isSome_iff h4).mpr hm)
  have hoff := targetOffset_of_windowMap hg
  obtain ⟨t, hwrite, hcfg, hread⟩ := writeTarget_readBack (g := g) s v (by omega)
  refine ⟨t, transact_write_next h4 hg hwrite, transact_read_ok h4 (hcfg ▸ hg) hread, fun off' h4' hne => ?_⟩
  refine transact_read_congr h4' hcfg fun g' hg' => readTarget_writeTarget_apart hwrite ?_ ?_
  · rintro rfl
    exact absurd hlo (by rw [← hoff]; decide)
  · have hoff' := targetOffset_of_windowMap hg'
    omega

end Sys2Proof.Machine
end

section
/-! PROOFS. What the commands do together (42_codec.md section 4, 43_convert.md, 20_memory.md section 2): a store of
what a buffer already holds is no change, ERR is no operand, and CONVERT is ENCODE of the state that holds the parameters. -/

namespace Sys2Proof.Machine

/-! The buffers apart, and a store that changes nothing. -/

theorem bufBase_apart {b d : Buffer} (h : b ≠ d) :
    bufBase b + 0x1000 ≤ bufBase d ∨ bufBase d + 0x1000 ≤ bufBase b := by
  cases b <;> cases d <;> simp_all [bufBase]

section
variable {s : State} {b d : Buffer} {i n : Nat} {bs : List Byte}

/-- A store in one buffer leaves every other one as it reads, in a legal build (20_memory.md R62). -/
theorem loadBuf_storeBuf_other {c : Config} (hl : c.Legal) (hne : b ≠ d) (hread : n ≤ bufSize c b)
    (hstore : bs.length = bufSize c d) : loadBuf (storeBuf s d 0 bs) b 0 n = loadBuf s b 0 n := by
  have ⟨_, hb⟩ := bufSize_legal hl b
  have ⟨_, hd⟩ := bufSize_legal hl d
  have hapart := bufBase_apart hne
  exact loadBuf_storeBuf_apart s (by omega)

/-- Storing what a buffer already holds changes nothing, in a canonical memory. -/
theorem storeBuf_loaded (hm : Memory.wf s.mem = true) (h : loadBuf s b i n = .ok bs) : storeBuf s b i bs = s := by
  rw [storeBuf, Memory.write_readBytes hm h]
  rfl

theorem wf_storeBuf (hm : Memory.wf s.mem = true) : Memory.wf (storeBuf s b i bs).mem = true :=
  Memory.wf_write hm _ bs

/-- A part of a buffer whose bytes are all written can be read. -/
theorem loadBuf_of_written (h : Written s b i n) : ∃ bs, loadBuf s b i n = .ok bs :=
  Memory.readBytes_isOk h

end

/-- No command reads ERR, and every one that completes replaces it. -/
theorem exec_setErr (i : Instr) (s : State) (e : BitVec 4) : exec i (s.setErr e) = exec i s := by
  cases i <;> rfl

/-! ENCODE's and DECODE's results, up to ERR. -/

/-- What ENCODE leaves, but for ERR, when N_BUF reads `n` and RR_BUF reads `rr` (42_codec.md R151). -/
def encoded (s : State) (n rr : List Byte) : State :=
  (storeBuf s .recBuf 0 (recordBytes s.msw s.n0inv n rr s.exp)).setRecValid (BitVec.ofNat 32 s.cfg.recLen)

/-- What DECODE leaves, but for ERR, when REC_BUF reads `r` (42_codec.md R153). -/
def decoded (s : State) (r : List Byte) : State :=
  (storeBuf
      (storeBuf
        ((s.setMsw (BitVec.ofNat 32 (leValue (slice r 0 4)))).setN0inv (BitVec.ofNat 32 (leValue (slice r 4 4))))
        .nBuf 0 (slice r 8 s.cfg.width))
      .rrBuf 0 (slice r (8 + s.cfg.width) s.cfg.width)).setExp
    (BitVec.ofNat 32 (leValue (slice r (8 + 2 * s.cfg.width) 4)))

section
variable {s : State} {n rr r : List Byte}

theorem execEncode_eq_encoded (hn : loadBuf s .nBuf 0 s.cfg.width = .ok n)
    (hrr : loadBuf s .rrBuf 0 s.cfg.width = .ok rr) : exec .encode s = .next ((encoded s n rr).setErr 0) :=
  execEncode_ok hn hrr

theorem execDecode_eq_decoded (hvalid : s.cfg.recLen ≤ s.recValid.toNat)
    (hr : loadBuf s .recBuf 0 s.cfg.recLen = .ok r) : exec .decode s = .next ((decoded s r).setErr 0) :=
  execDecode_whole hvalid hr

theorem wf_encoded (hm : Memory.wf s.mem = true) : Memory.wf (encoded s n rr).mem = true := wf_storeBuf hm

theorem wf_decoded (hm : Memory.wf s.mem = true) : Memory.wf (decoded s r).mem = true := wf_storeBuf (wf_storeBuf hm)

section
variable (hl : s.cfg.Legal) (hn : n.length = s.cfg.width) (hrr : rr.length = s.cfg.width)
include hn hrr

theorem loadBuf_encoded_recBuf :
    loadBuf (encoded s n rr) .recBuf 0 s.cfg.recLen = .ok (recordBytes s.msw s.n0inv n rr s.exp) :=
  loadBuf_storeBuf_same s .recBuf 0 (recordBytes_length_eq_bufSize hn hrr ..)

include hl in
theorem loadBuf_encoded_other {b : Buffer} (hb : b ≠ .recBuf) {k : Nat} (hk : k ≤ bufSize s.cfg b) :
    loadBuf (encoded s n rr) b 0 k = loadBuf s b 0 k :=
  loadBuf_storeBuf_other hl hb hk (recordBytes_length_eq_bufSize hn hrr ..)

end

section
variable (hr : r.length = s.cfg.recLen)
include hr

theorem length_slice_modulus : (slice r 8 s.cfg.width).length = s.cfg.width :=
  slice_length (by rw [hr, Config.recLen]; omega)

theorem length_slice_rr : (slice r (8 + s.cfg.width) s.cfg.width).length = s.cfg.width :=
  slice_length (by rw [hr, Config.recLen]; omega)

theorem loadBuf_decoded_rrBuf :
    loadBuf (decoded s r) .rrBuf 0 s.cfg.width = .ok (slice r (8 + s.cfg.width) s.cfg.width) :=
  loadBuf_storeBuf_same _ .rrBuf 0 (length_slice_rr hr)

variable (hl : s.cfg.Legal)
include hl

theorem loadBuf_decoded_nBuf : loadBuf (decoded s r) .nBuf 0 s.cfg.width = .ok (slice r 8 s.cfg.width) :=
  (loadBuf_storeBuf_other hl (by decide) le_rfl (length_slice_rr hr)).trans
    (loadBuf_storeBuf_same _ .nBuf 0 (length_slice_modulus hr))

theorem loadBuf_decoded_recBuf : loadBuf (decoded s r) .recBuf 0 s.cfg.recLen = loadBuf s .recBuf 0 s.cfg.recLen :=
  (loadBuf_storeBuf_other hl (by decide) le_rfl (length_slice_rr hr)).trans
    (loadBuf_storeBuf_other hl (by decide) le_rfl (length_slice_modulus hr))

end

/-- ENCODE of fields that the record in REC_BUF already holds changes REC_VALID alone. -/
theorem encoded_of_recBuf (hm : Memory.wf s.mem = true)
    (h : loadBuf s .recBuf 0 s.cfg.recLen = .ok (recordBytes s.msw s.n0inv n rr s.exp)) :
    encoded s n rr = s.setRecValid (BitVec.ofNat 32 s.cfg.recLen) := by
  rw [encoded, storeBuf_loaded hm h]

/-- DECODE of a record whose fields already stand in the registers and buffers changes nothing. -/
theorem decoded_of_fields (hm : Memory.wf s.mem = true) (hmsw : s.msw = BitVec.ofNat 32 (leValue (slice r 0 4)))
    (hn0inv : s.n0inv = BitVec.ofNat 32 (leValue (slice r 4 4)))
    (hn : loadBuf s .nBuf 0 s.cfg.width = .ok (slice r 8 s.cfg.width))
    (hrr : loadBuf s .rrBuf 0 s.cfg.width = .ok (slice r (8 + s.cfg.width) s.cfg.width))
    (hexp : s.exp = BitVec.ofNat 32 (leValue (slice r (8 + 2 * s.cfg.width) 4))) : decoded s r = s := by
  have hregs : (s.setMsw s.msw).setN0inv s.n0inv = s := rfl
  rw [decoded, ← hmsw, ← hn0inv, ← hexp, hregs, storeBuf_loaded hm hn, storeBuf_loaded hm hrr]
  rfl

end

/-- Settles O22: DECODE parses the very record ENCODE stored, so every field it writes already stands. -/
theorem encodeThenDecodeKeepsTheFields : Obligations.EncodeThenDecodeKeepsTheFields := by
  intro s ⟨hl, hm, _, _⟩ hwn hwrr
  obtain ⟨n, hn⟩ := loadBuf_of_written hwn
  obtain ⟨rr, hrr⟩ := loadBuf_of_written hwrr
  have hnlen := loadBuf_length hn
  have hrrlen := loadBuf_length hrr
  have hkeptN := loadBuf_encoded_other hl hnlen hrrlen (b := .nBuf) nofun le_rfl
  have hkeptRr := loadBuf_encoded_other hl hnlen hrrlen (b := .rrBuf) nofun le_rfl
  have hrec := loadBuf_encoded_recBuf hnlen hrrlen
  have hvalid : s.cfg.recLen ≤ (encoded s n rr).recValid.toNat := (recLen_word hl).ge
  have hmod := recordBytes_modulus s.msw s.n0inv n rr s.exp
  have hres := recordBytes_rr s.msw s.n0inv n rr s.exp
  have hexp := recordBytes_exp s.msw s.n0inv n rr s.exp
  rw [hnlen] at hmod
  rw [hnlen, hrrlen] at hres
  rw [hnlen, hrrlen, show 8 + s.cfg.width + s.cfg.width = 8 + 2 * s.cfg.width by omega] at hexp
  have hfixed : decoded (encoded s n rr) (recordBytes s.msw s.n0inv n rr s.exp) = encoded s n rr := by
    refine decoded_of_fields (wf_encoded hm) ?_ ?_ ((hkeptN.trans hn).trans (congrArg _ hmod.symm))
      ((hkeptRr.trans hrr).trans (congrArg _ hres.symm)) ?_
    · rw [recordBytes_msw, word_of_leBytes]
      rfl
    · rw [recordBytes_n0inv, word_of_leBytes]
      rfl
    · change s.exp = BitVec.ofNat 32 (leValue (slice _ (8 + 2 * s.cfg.width) 4))
      rw [hexp, word_of_leBytes]
  refine ⟨_, execEncode_eq_encoded hn hrr, ?_, rfl, rfl, rfl, rfl, hkeptN, hkeptRr⟩
  rw [exec_setErr, execDecode_eq_decoded hvalid hrec, hfixed]

/-- Settles O23: ENCODE serializes the fields DECODE took from the record back into that record. -/
theorem decodeThenEncodeKeepsTheRecord : Obligations.DecodeThenEncodeKeepsTheRecord := by
  intro s ⟨hl, hm, _, _⟩ hvalid hwritten
  obtain ⟨r, hr⟩ := loadBuf_of_written hwritten
  have hrlen := loadBuf_length hr
  have hrec := (loadBuf_decoded_recBuf hrlen hl).trans hr
  have hrecord := recordBytes_of_slices (w := s.cfg.width) hrlen
  have hencoded := encoded_of_recBuf (s := decoded s r) (n := slice r 8 s.cfg.width)
    (rr := slice r (8 + s.cfg.width) s.cfg.width) (wf_decoded hm) (hrec.trans (congrArg _ hrecord.symm))
  refine ⟨_, ((decoded s r).setRecValid (BitVec.ofNat 32 s.cfg.recLen)).setErr 0, execDecode_eq_decoded hvalid hr, ?_,
    rfl, hrec.trans hr.symm, recLen_word hl, rfl⟩
  rw [exec_setErr, execEncode_eq_encoded (loadBuf_decoded_nBuf hrlen hl) (loadBuf_decoded_rrBuf hrlen), hencoded]
  rfl

end Sys2Proof.Machine
end

section
/-! PROOFS. CONVERT beside the separate commands (43_convert.md), and every command issued twice (20_memory.md
section 2): what a command reads is apart from what it writes, or already is what it writes. -/

namespace Sys2Proof.Machine

/-! The parameters of an odd modulus, as CONVERT and the separate commands compute them. -/

/-- The Montgomery constant of the modulus `n` (41_montgomery.md R130). -/
def constantWord (n : List Byte) : Word := BitVec.ofNat 32 (montN0inv (leValue (n.take 4)))

/-- The residue of the modulus `n` as `w` bytes (41_montgomery.md R136). -/
def residueBytes (w : Nat) (n : List Byte) : List Byte := leBytes (montRr w (leValue n)) w

@[simp] theorem residueBytes_length (w : Nat) (n : List Byte) : (residueBytes w n).length = w := leBytes_length _ w

section
variable {s : State} {n : List Byte}

theorem leValue_residueBytes (hn : loadBuf s .nBuf 0 s.cfg.width = .ok n) (hz : leValue n ≠ 0) :
    leValue (residueBytes s.cfg.width n) = 2 ^ (16 * s.cfg.width) % leValue n := by
  have hfits : leValue n < 256 ^ s.cfg.width := loadBuf_length hn ▸ leValue_lt n
  exact leValue_leBytes_of_lt ((montRr_lt s.cfg.width hz).trans hfits)

theorem execRr_eq_store (hn : loadBuf s .nBuf 0 s.cfg.width = .ok n) (hz : leValue n ≠ 0) :
    exec .rr s = .next ((storeBuf s .rrBuf 0 (residueBytes s.cfg.width n)).setErr 0) := execRr_nonzero hn hz

variable (hl : s.cfg.Legal) (hn : loadBuf s .nBuf 0 s.cfg.width = .ok n)
include hl hn

theorem execN0inv_of_even (heven : leValue n % 2 = 0) : exec .n0inv s = .next (s.setErr 1) := by
  obtain ⟨hlow, hmod⟩ := loadBuf_low_of_modulus hl hn
  exact execN0inv_even hlow (by omega)

theorem execN0inv_of_odd (hodd : leValue n % 2 = 1) :
    exec .n0inv s = .next ((s.setN0inv (constantWord n)).setErr 0) := by
  obtain ⟨hlow, hmod⟩ := loadBuf_low_of_modulus hl hn
  exact execN0inv_odd hlow (by omega)

theorem execConvert_of_even (heven : leValue n % 2 = 0) : exec .convert s = .next (s.setErr 1) := by
  obtain ⟨hlow, hmod⟩ := loadBuf_low_of_modulus hl hn
  exact execConvert_even hlow (by omega)

/-- CONVERT of an odd modulus is ENCODE of the state that holds its parameters. -/
theorem execConvert_of_odd (hodd : leValue n % 2 = 1) :
    exec .convert s = exec .encode (withParameters s (constantWord n) (residueBytes s.cfg.width n)) := by
  obtain ⟨hlow, hmod⟩ := loadBuf_low_of_modulus hl hn
  exact (execConvert_odd hlow (by omega) hn).trans
    (execEncode_withParameters hl hn (constantWord n) (residueBytes_length s.cfg.width n)).symm

end

/-! The commands one after the other. -/

theorem transact_write_msw (v : Word) (s : State) :
    transact (.write (Access.word32 0x018) v) s = (s.setMsw v, .done) := by
  obtain ⟨-, -, -, -, -, -, hmsw, -⟩ := windowMap_registers s.cfg
  exact transact_write_next rfl hmsw rfl

/-- The state after RR has stored the residue bytes `r` and the host has written the build's word count to MSW. -/
def withResidue (s : State) (r : List Byte) : State :=
  ((storeBuf s .rrBuf 0 r).setErr 0).setMsw (BitVec.ofNat 32 s.cfg.mswVal)

/-- After N0INV that is the state with all the parameters. -/
theorem withResidue_setN0inv (s : State) (a : Word) (r : List Byte) :
    withResidue ((s.setN0inv a).setErr 0) r = (withParameters s a r).setErr 0 := rfl

section
variable {s : State} {n rr : List Byte} (hl : s.cfg.Legal)
include hl

theorem loadBuf_nBuf_withResidue (r : List Byte) :
    loadBuf (withResidue s r) .nBuf 0 s.cfg.width = loadBuf s .nBuf 0 s.cfg.width := by
  obtain ⟨-, -, hw⟩ := hl
  exact loadBuf_nBuf_storeBuf_rrBuf hw r

/-- ENCODE completes with any modulus and residue, and leaves the residue where it was. -/
theorem execEncode_keeps_rrBuf (hn : loadBuf s .nBuf 0 s.cfg.width = .ok n)
    (hrr : loadBuf s .rrBuf 0 s.cfg.width = .ok rr) :
    ∃ t, exec .encode s = .next t ∧ t.err = 0 ∧ loadBuf t .rrBuf 0 s.cfg.width = .ok rr :=
  ⟨_, execEncode_eq_encoded hn hrr, rfl,
    (loadBuf_encoded_other hl (loadBuf_length hn) (loadBuf_length hrr) (by decide) le_rfl).trans hrr⟩

end

/-- Settles O21: N0INV and RR leave the modulus, and with the word count in MSW they leave what CONVERT's ENCODE starts
from; for an even modulus CONVERT stops at its parity check and the sequence does not. -/
theorem convertEqualsTheSeparateCommands : Obligations.ConvertEqualsTheSeparateCommands := by
  intro s n ⟨hl, _, _, _⟩ hn
  have hrlen := residueBytes_length s.cfg.width n
  have hrbuf (x : State) : loadBuf (withResidue x (residueBytes s.cfg.width n)) .rrBuf 0 s.cfg.width =
      .ok (residueBytes s.cfg.width n) := loadBuf_storeBuf_same x .rrBuf 0 hrlen
  refine ⟨fun hodd => ?_, fun heven hz => ?_, fun hz => ?_⟩
  · have hconstant := execN0inv_of_odd hl hn hodd
    have hconvert := execConvert_of_odd hl hn hodd
    generalize constantWord n = a at hconstant hconvert
    have hencode := execEncode_withParameters hl hn a hrlen
    refine ⟨_, _, _, _, hconstant, rfl, execRr_eq_store (s := (s.setN0inv a).setErr 0) hn (by omega), rfl,
      transact_write_msw _ _, ?_, rfl, hconvert.trans hencode⟩
    exact (congrArg _ (withResidue_setN0inv s a _)).trans ((exec_setErr _ _ _).trans hencode)
  · obtain ⟨t, hencode, herr, hkept⟩ := execEncode_keeps_rrBuf (s := withResidue (s.setErr 1) _) hl
      ((loadBuf_nBuf_withResidue hl _).trans hn) (hrbuf _)
    exact ⟨execConvert_of_even hl hn heven, s.setErr 1, _, _, t, _, execN0inv_of_even hl hn heven, rfl,
      execRr_eq_store (s := s.setErr 1) hn hz, rfl, loadBuf_storeBuf_same _ .rrBuf 0 hrlen,
      leValue_residueBytes hn hz, transact_write_msw _ _, hencode, herr, hkept⟩
  · have heven : leValue n % 2 = 0 := by omega
    refine ⟨execConvert_of_even hl hn heven, execN0inv_of_even hl hn heven, execRr_zero (s := s.setErr 1) hn hz,
      fun hwritten => ?_⟩
    obtain ⟨rr, hrr⟩ := loadBuf_of_written hwritten
    obtain ⟨t, hencode, herr, hkept⟩ :=
      execEncode_keeps_rrBuf (s := (s.setErr 1).setMsw (BitVec.ofNat 32 s.cfg.mswVal)) hl hn hrr
    exact ⟨_, t, transact_write_msw _ _, hencode, herr, hkept.trans hrr.symm⟩

end Sys2Proof.Machine
end

section
/-! PROOFS. Every command issued twice (20_memory.md section 2): ERR is no operand, the operand buffers lie apart from
the stored ones or hold the stored bytes already, so the second issue stores what stands there. -/

namespace Sys2Proof.Machine

/-- A command that only raised an error raises it again: it changed nothing that it reads. -/
theorem exec_again_of_setErr {i : Instr} {s : State} {e : BitVec 4} (h : exec i s = .next (s.setErr e)) :
    exec i (s.setErr e) = .next (s.setErr e) := (exec_setErr i s e).trans h

section
variable {s t : State}

theorem setN0inv_setN0inv (s : State) (a : Word) : (s.setN0inv a).setN0inv a = s.setN0inv a := rfl

theorem storeBuf_storeBuf (hm : Memory.wf s.mem = true) (b : Buffer) (bs : List Byte) :
    storeBuf (storeBuf s b 0 bs) b 0 bs = storeBuf s b 0 bs :=
  storeBuf_loaded (wf_storeBuf hm) (loadBuf_storeBuf_same s b 0 rfl)

theorem n0inv_again (h : exec .n0inv s = .next t) : exec .n0inv t = .next t := by
  rcases execN0inv_cases s with ⟨f, -, he⟩ | ⟨low, hlow, ⟨-, he⟩ | ⟨hp, he⟩⟩ <;> cases he.symm.trans h
  · exact exec_again_of_setErr h
  · have hagain := execN0inv_odd (s := s.setN0inv (BitVec.ofNat 32 (montN0inv (leValue low))))
      ((loadBuf_setN0inv ..).trans hlow) hp
    rw [setN0inv_setN0inv] at hagain
    rwa [exec_setErr]

variable (hl : s.cfg.Legal) (hm : Memory.wf s.mem = true)
include hl hm

theorem loadN_again (h : exec .loadN s = .next t) : exec .loadN t = .next t := by
  rcases execLoadN_cases s with ⟨-, he⟩ | ⟨-, f, -, he⟩ | ⟨hfit, be, hbe, ⟨-, he⟩ | ⟨hv, he⟩⟩ <;> cases he.symm.trans h
  · exact exec_again_of_setErr h
  · exact exec_again_of_setErr h
  · have hkept := loadBuf_storeBuf_other (s := s) hl (b := .beBuf) (d := .nBuf) (by decide) hfit
      (leBytes_length (beValue be) s.cfg.width)
    have hagain := execLoadN_fits (s := storeBuf s .nBuf 0 (leBytes (beValue be) s.cfg.width)) hfit
      (hkept.trans hbe) hv
    rw [storeBuf_cfg, storeBuf_storeBuf hm] at hagain
    rwa [exec_setErr]

theorem rr_again (h : exec .rr s = .next t) : exec .rr t = .next t := by
  rcases execRr_cases s with ⟨f, -, he⟩ | ⟨n, hn, ⟨-, he⟩ | ⟨hz, he⟩⟩ <;> cases he.symm.trans h
  · exact exec_again_of_setErr h
  · have hkept := loadBuf_storeBuf_other (s := s) hl (b := .nBuf) (d := .rrBuf) (by decide) le_rfl
      (leBytes_length (montRr s.cfg.width (leValue n)) s.cfg.width)
    have hagain := execRr_nonzero (s := storeBuf s .rrBuf 0 (leBytes (montRr s.cfg.width (leValue n)) s.cfg.width))
      (hkept.trans hn) hz
    rw [storeBuf_cfg, storeBuf_storeBuf hm] at hagain
    rwa [exec_setErr]

theorem encode_again (h : exec .encode s = .next t) : exec .encode t = .next t := by
  rcases execEncode_cases s with ⟨f, -, he⟩ | ⟨n, rr, hn, hrr, he⟩ <;> cases he.symm.trans h
  have hnlen := loadBuf_length hn
  have hrrlen := loadBuf_length hrr
  change exec .encode ((encoded s n rr).setErr 0) = .next ((encoded s n rr).setErr 0)
  rw [exec_setErr,
    execEncode_eq_encoded (s := encoded s n rr) ((loadBuf_encoded_other hl hnlen hrrlen (by decide) le_rfl).trans hn)
      ((loadBuf_encoded_other hl hnlen hrrlen (by decide) le_rfl).trans hrr),
    encoded_of_recBuf (s := encoded s n rr) (wf_encoded hm) (loadBuf_encoded_recBuf hnlen hrrlen)]
  rfl

theorem decode_again (h : exec .decode s = .next t) : exec .decode t = .next t := by
  rcases execDecode_cases s with ⟨-, he⟩ | ⟨-, f, -, he⟩ | ⟨hvalid, r, hr, he⟩ <;> cases he.symm.trans h
  · exact exec_again_of_setErr h
  have hrlen := loadBuf_length hr
  have hfixed : decoded (decoded s r) r = decoded s r :=
    decoded_of_fields (wf_decoded hm) rfl rfl (loadBuf_decoded_nBuf hrlen hl) (loadBuf_decoded_rrBuf hrlen) rfl
  change exec .decode ((decoded s r).setErr 0) = .next ((decoded s r).setErr 0)
  rw [exec_setErr, execDecode_eq_decoded (s := decoded s r) hvalid ((loadBuf_decoded_recBuf hrlen hl).trans hr),
    hfixed]

omit hl in
theorem wf_withParameters (a : Word) (r : List Byte) : Memory.wf (withParameters s a r).mem = true := wf_storeBuf hm

omit hl in
/-- Parameters that already stand are stored without a change. -/
theorem withParameters_of_stored {a : Word} {r : List Byte} {w : Nat} (hn0inv : s.n0inv = a)
    (hmsw : s.msw = BitVec.ofNat 32 s.cfg.mswVal) (hr : loadBuf s .rrBuf 0 w = .ok r) : withParameters s a r = s := by
  have hset : s.setN0inv s.n0inv = s := rfl
  rw [withParameters, ← hn0inv, hset, storeBuf_loaded hm hr, ← hmsw]
  rfl

/-- ENCODE leaves the modulus and the parameters it started from as they stand. -/
theorem encoded_withParameters {a : Word} {n r : List Byte} (hn : loadBuf s .nBuf 0 s.cfg.width = .ok n)
    (hr : r.length = s.cfg.width) :
    loadBuf (encoded (withParameters s a r) n r) .nBuf 0 s.cfg.width = .ok n ∧
      withParameters (encoded (withParameters s a r) n r) a r = encoded (withParameters s a r) n r := by
  have hkept {b : Buffer} (hb : b ≠ .recBuf) {k : Nat} (hk : k ≤ bufSize s.cfg b) :=
    loadBuf_encoded_other (s := withParameters s a r) hl (loadBuf_length hn) hr hb hk
  have hkeptN := (hkept (b := .nBuf) (by decide) le_rfl).trans (loadBuf_nBuf_withParameters s a r hl)
  have hkeptRr := (hkept (b := .rrBuf) (by decide) le_rfl).trans (loadBuf_rrBuf_withParameters s a r hr)
  exact ⟨hkeptN.trans hn, withParameters_of_stored (wf_encoded (wf_withParameters hm a r)) rfl rfl hkeptRr⟩

/-- CONVERT is ENCODE of the state with the parameters, and they still stand after it, so the second issue is ENCODE's
second issue. -/
theorem convert_again (h : exec .convert s = .next t) : exec .convert t = .next t := by
  rcases execConvert_cases s with ⟨f, -, he⟩ | ⟨low, hlow, ⟨-, he⟩ | ⟨hp, ⟨f, -, he⟩ | ⟨n, hn, -⟩⟩⟩
  · cases he.symm.trans h
  · cases he.symm.trans h
    exact exec_again_of_setErr h
  · cases he.symm.trans h
  have ⟨_, hfour, _⟩ := hl
  have hodd : leValue n % 2 = 1 := by
    have hmod := leValue_mod_of_loadBuf_low hfour hlow hn
    omega
  have hrlen := residueBytes_length s.cfg.width n
  have hfirst := (execConvert_of_odd hl hn hodd).symm.trans h
  have hsecond (u : State) (hu : u.cfg = s.cfg) (hun : loadBuf u .nBuf 0 s.cfg.width = .ok n) :
      exec .convert u = exec .encode (withParameters u (constantWord n) (residueBytes s.cfg.width n)) := by
    rw [← hu] at hl hun ⊢
    exact execConvert_of_odd hl hun hodd
  generalize constantWord n = a at hfirst hsecond
  generalize residueBytes s.cfg.width n = r at hrlen hfirst hsecond
  have hencode := execEncode_eq_encoded ((loadBuf_nBuf_withParameters s a r hl).trans hn)
    (loadBuf_rrBuf_withParameters s a r hrlen)
  cases hencode.symm.trans hfirst
  obtain ⟨hkeptN, hfixed⟩ := encoded_withParameters hl hm (a := a) hn hrlen
  have hagain := encode_again (s := withParameters s a r) hl (wf_withParameters hm a r) hencode
  rw [exec_setErr] at hagain ⊢
  rw [hsecond (encoded (withParameters s a r) n r) rfl hkeptN, hfixed, hagain]

end

/-- Settles O28, command by command. -/
theorem commandsAreIdempotent : Obligations.CommandsAreIdempotent := by
  intro i s t ⟨hl, hm, _, _⟩ h
  cases i with
  | loadN => exact loadN_again hl hm h
  | n0inv => exact n0inv_again h
  | rr => exact rr_again hl hm h
  | encode => exact encode_again hl hm h
  | decode => exact decode_again hl hm h
  | convert => exact convert_again hl hm h

end Sys2Proof.Machine
end

section
/-! PROOFS. What a command leaves alone and what stops it, read off its table columns (10_state.md R37,
70_reset_and_hazards.md R201, R204). -/

namespace Sys2Proof.Machine

/-! The written-by columns. -/

/-- Every item outside a set reads in `t` as in `s`. -/
def Frame (p : Item → Prop) (s t : State) : Prop := ∀ x, ¬ p x → sameItem t s x

/-- ERR is in every command's column, so a raised error is inside it. -/
theorem frame_setErr (c : Config) (i : Instr) (s : State) (e : BitVec 4) : Frame (writesItem c i) s (s.setErr e) := by
  intro x hx
  cases x with
  | err => exact absurd (by cases i <;> trivial) hx
  | _ => rfl

section
variable {s t : State}

theorem loadN_frame (h : exec .loadN s = .next t) : Frame (writesItem s.cfg .loadN) s t := by
  rcases execLoadN_cases s with ⟨-, he⟩ | ⟨-, f, -, he⟩ | ⟨-, be, -, ⟨-, he⟩ | ⟨-, he⟩⟩ <;> cases he.symm.trans h
  · exact frame_setErr _ _ _ _
  · exact frame_setErr _ _ _ _
  · intro x hx
    cases x with
    | err => exact absurd trivial hx
    | byte off => exact read?_storeBuf_outside (leBytes_length ..) hx
    | _ => rfl

theorem n0inv_frame (h : exec .n0inv s = .next t) : Frame (writesItem s.cfg .n0inv) s t := by
  rcases execN0inv_cases s with ⟨f, -, he⟩ | ⟨low, -, ⟨-, he⟩ | ⟨-, he⟩⟩
  · cases he.symm.trans h
  · cases he.symm.trans h
    exact frame_setErr _ _ _ _
  · generalize (BitVec.ofNat 32 (montN0inv (leValue low)) : Word) = a at he
    cases he.symm.trans h
    intro x hx
    cases x with
    | err => exact absurd trivial hx
    | n0inv => exact absurd trivial hx
    | _ => rfl

theorem rr_frame (h : exec .rr s = .next t) : Frame (writesItem s.cfg .rr) s t := by
  rcases execRr_cases s with ⟨f, -, he⟩ | ⟨n, -, ⟨-, he⟩ | ⟨-, he⟩⟩ <;> cases he.symm.trans h
  · exact frame_setErr _ _ _ _
  · intro x hx
    cases x with
    | err => exact absurd trivial hx
    | byte off => exact read?_storeBuf_outside (leBytes_length ..) hx
    | _ => rfl

theorem encode_frame (h : exec .encode s = .next t) : Frame (writesItem s.cfg .encode) s t := by
  rcases execEncode_cases s with ⟨f, -, he⟩ | ⟨n, rr, hn, hrr, he⟩ <;> cases he.symm.trans h
  intro x hx
  cases x with
  | err => exact absurd trivial hx
  | recValid => exact absurd trivial hx
  | byte off =>
    exact read?_storeBuf_outside (recordBytes_length_eq_bufSize (loadBuf_length hn) (loadBuf_length hrr) ..) hx
  | _ => rfl

theorem decode_frame (h : exec .decode s = .next t) : Frame (writesItem s.cfg .decode) s t := by
  rcases execDecode_cases s with ⟨-, he⟩ | ⟨-, f, -, he⟩ | ⟨-, r, hr, he⟩ <;> cases he.symm.trans h
  · exact frame_setErr _ _ _ _
  have hrlen := loadBuf_length hr
  intro x hx
  cases x with
  | err => exact absurd trivial hx
  | msw => exact absurd trivial hx
  | n0inv => exact absurd trivial hx
  | exp => exact absurd trivial hx
  | byte off =>
    obtain ⟨hN, hRr⟩ := not_or.mp hx
    exact (read?_storeBuf_outside (s := storeBuf s .nBuf 0 _) (length_slice_rr hrlen) hRr).trans
      (read?_storeBuf_outside (length_slice_modulus hrlen) hN)
  | _ => rfl

/-- CONVERT writes the parameters' items and ENCODE's. -/
theorem convert_frame (hl : s.cfg.Legal) (h : exec .convert s = .next t) :
    Frame (writesItem s.cfg .convert) s t := by
  rcases execConvert_cases s with ⟨f, -, he⟩ | ⟨low, hlow, ⟨-, he⟩ | ⟨hp, ⟨f, -, he⟩ | ⟨n, hn, -⟩⟩⟩
  · cases he.symm.trans h
  · cases he.symm.trans h
    exact frame_setErr _ _ _ _
  · cases he.symm.trans h
  have ⟨_, hfour, _⟩ := hl
  have hmod := leValue_mod_of_loadBuf_low hfour hlow hn
  have hrlen := residueBytes_length s.cfg.width n
  have hencode := (execConvert_of_odd hl hn (by omega)).symm.trans h
  generalize constantWord n = a at hencode
  generalize residueBytes s.cfg.width n = r at hrlen hencode
  have hframe := encode_frame hencode
  intro x hx
  cases x with
  | err => exact absurd trivial hx
  | msw => exact absurd trivial hx
  | n0inv => exact absurd trivial hx
  | recValid => exact absurd trivial hx
  | byte off =>
    obtain ⟨hRr, hRec⟩ := not_or.mp hx
    exact (hframe (.byte off) hRec).trans (read?_withParameters_outside s a r hrlen hRr)
  | exp => exact hframe .exp not_false
  | beLen => exact hframe .beLen not_false

end

/-- Settles O24, command by command. -/
theorem commandsWriteOnlyTheirColumns : Obligations.CommandsWriteOnlyTheirColumns := by
  intro i s t hl h
  have ⟨houtside, _⟩ := exec_effect hl h
  refine ⟨?_, houtside⟩
  cases i with
  | loadN => exact loadN_frame h
  | n0inv => exact n0inv_frame h
  | rr => exact rr_frame h
  | encode => exact encode_frame h
  | decode => exact decode_frame h
  | convert => exact convert_frame hl h

/-! The read-by columns. -/

/-- The command reads a byte that was never written, and `f` names it (log entry 3). -/
def StopsOnOperand (i : Instr) (s : State) (f : Fault) : Prop :=
  ∃ off, readsItem s i (.byte off) ∧ s.mem.read? off = none ∧ f = .unwrittenByte off

section
variable {s : State} {f : Fault}

theorem stopsOnOperand_of_loadBuf {i : Instr} {b : Buffer} {n : Nat} (h : loadBuf s b 0 n = .error f)
    (hreads : ∀ off, bufBase b ≤ off → off < bufBase b + n → readsItem s i (.byte off)) : StopsOnOperand i s f := by
  obtain ⟨j, hj, hf, hnone⟩ := loadBuf_error h
  exact ⟨_, hreads _ (by omega) (by omega), hnone, hf⟩

/-- A command's fault is a byte of its column that was never written (70_reset_and_hazards.md R201). -/
theorem exec_fault {i : Instr} (hl : s.cfg.Legal) (h : exec i s = .fault f) : StopsOnOperand i s f := by
  have ⟨_, hfour, _⟩ := hl
  cases i with
  | loadN =>
    rcases execLoadN_cases s with ⟨-, he⟩ | ⟨hfit, f, hf, he⟩ | ⟨-, be, -, ⟨-, he⟩ | ⟨-, he⟩⟩ <;> cases he.symm.trans h
    exact stopsOnOperand_of_loadBuf hf fun off hlo hhi => ⟨hfit, hlo, hhi⟩
  | n0inv =>
    rcases execN0inv_cases s with ⟨f, hf, he⟩ | ⟨low, -, ⟨-, he⟩ | ⟨-, he⟩⟩ <;> cases he.symm.trans h
    exact stopsOnOperand_of_loadBuf hf fun off hlo hhi => ⟨hlo, hhi⟩
  | rr =>
    rcases execRr_cases s with ⟨f, hf, he⟩ | ⟨n, -, ⟨-, he⟩ | ⟨-, he⟩⟩ <;> cases he.symm.trans h
    exact stopsOnOperand_of_loadBuf hf fun off hlo hhi => ⟨hlo, hhi⟩
  | encode =>
    rcases execEncode_cases s with ⟨f, hf | ⟨-, hf⟩, he⟩ | ⟨n, rr, -, -, he⟩ <;> cases he.symm.trans h
    · exact stopsOnOperand_of_loadBuf hf fun off hlo hhi => .inl ⟨hlo, hhi⟩
    · exact stopsOnOperand_of_loadBuf hf fun off hlo hhi => .inr ⟨hlo, hhi⟩
  | decode =>
    rcases execDecode_cases s with ⟨-, he⟩ | ⟨hwhole, f, hf, he⟩ | ⟨-, r, -, he⟩ <;> cases he.symm.trans h
    exact stopsOnOperand_of_loadBuf hf fun off hlo hhi => ⟨hwhole, hlo, hhi⟩
  | convert =>
    rcases execConvert_cases s with ⟨f, hf, he⟩ | ⟨low, -, ⟨-, he⟩ | ⟨-, ⟨f, hf, he⟩ | ⟨n, -, he⟩⟩⟩ <;>
      cases he.symm.trans h
    · exact stopsOnOperand_of_loadBuf hf fun off hlo hhi => ⟨hlo, by rw [bufSize]; omega⟩
    · exact stopsOnOperand_of_loadBuf hf fun off hlo hhi => ⟨hlo, hhi⟩

end

/-- Settles O29: a command's three ways to end, of which a refusal never comes and a fault names an unwritten
operand. -/
theorem commandsStopOnlyOnUnwrittenOperands : Obligations.CommandsStopOnlyOnUnwrittenOperands := by
  intro i s hl
  obtain ⟨hrefuses, -⟩ := exec_stops (i := i) (s := s)
  refine ⟨fun hwritten => ?_, fun f hf => exec_fault hl hf, hrefuses⟩
  cases he : exec i s with
  | next t => exact ⟨t, rfl⟩
  | fault f =>
    obtain ⟨off, hreads, hnone, -⟩ := exec_fault hl he
    simpa [hnone] using hwritten off hreads
  | refused r => exact absurd he (hrefuses r)

/-- Settles O38: the parity check comes before the read of the whole modulus. -/
theorem convertChecksParityFirst : Obligations.ConvertChecksParityFirst := by
  intro s low _ hlow
  exact ⟨fun heven => execConvert_even hlow heven, fun hodd f hf => execConvert_unwritten_high hlow hodd hf⟩

end Sys2Proof.Machine
end

section
/-! PROOFS. One step, line by line of the host program (30_encoding.md R86), and the two refusals (20_memory.md R65,
93_implementation_defined.md U11). -/

namespace Sys2Proof.Machine

/-! What a host line comes to, given how its transaction ends. -/

section
variable {s t : State} {a : Access} {v : Word} {k : Fin 8}

theorem hostWrite_done (hwin : a.off < 0x5000) (h : transact (.write a v) s = (t, .done)) :
    hostWrite a v s = .next (advance t) := by
  rw [hostWrite_in v hwin, h]

theorem hostWrite_failed {f : Fault} (hwin : a.off < 0x5000) (h : transact (.write a v) s = (t, .failed f)) :
    hostWrite a v s = .fault f := by
  rw [hostWrite_in v hwin, h]

theorem hostRead_data (hwin : a.off < 0x5000) (h : transact (.read a) s = (t, .data v)) :
    hostRead a k s = .next (advance (setVar k v t)) := by
  rw [hostRead_in k hwin, h]

theorem onBus_outside {off : Nat} (h : 0x5000 ≤ off) (s : State) (c : Nat → Result) :
    onBus off s c = .refused (.outsideWindow off) := by
  rw [onBus, windowOffset_out s.cfg h]

/-- A branch goes to its label's line where its condition holds, else to the next line (log entry 18). -/
theorem hostBranch_found {l n : Nat} (h : findLabel s.host.prog l = some n) (c : Bool) :
    hostBranch c l s = .next (s.setHost { s.host with line := if c then n else s.host.line + 1 }) := by
  cases c with
  | true => rw [hostBranch, if_pos rfl, h]; rfl
  | false => rfl

theorem runLine_beq {l n : Nat} (h : findLabel s.host.prog l = some n) (imm : Word) :
    runLine (.beq k imm l) s =
      .next (s.setHost { s.host with line := if s.host.vars[k] = imm then n else s.host.line + 1 }) := by
  rw [runLine, hostBranch_found h]
  simp [getVar]

theorem runLine_bne {l n : Nat} (h : findLabel s.host.prog l = some n) (imm : Word) :
    runLine (.bne k imm l) s =
      .next (s.setHost { s.host with line := if s.host.vars[k] = imm then s.host.line + 1 else n }) := by
  rw [runLine, hostBranch_found h]
  simp [getVar]

end

/-! A command word on the host's line (40_host_interface.md R103). -/

section
variable {s t : State} {w : Word} {i : Instr}

theorem runLine_cmd_next (hw : decode w = .ok i) (h : exec i s = .next t) :
    runLine (wr 0x000 w) s = .next (advance t) :=
  hostWrite_done (by decide) (transact_write_cmd ((issueCommand_of_decode_ok hw s).trans h))

theorem runLine_cmd_fault {f : Fault} (hw : decode w = .ok i) (h : exec i s = .fault f) :
    runLine (wr 0x000 w) s = .fault f := by
  obtain ⟨hcmd, -⟩ := windowMap_registers s.cfg
  exact hostWrite_failed (by decide) (transact_write_fault rfl hcmd ((issueCommand_of_decode_ok hw s).trans h))

theorem exec_host (hl : s.cfg.Legal) (h : exec i s = .next t) : t.host = s.host := by
  obtain ⟨⟨-, hhost, -⟩, -⟩ := exec_effect hl h
  exact hhost

end

/-- Settles O7: the line's write is the word's command issue, on the state with the reset input read. -/
theorem stepRunsTheDecodedCommand : Obligations.StepRunsTheDecodedCommand := by
  intro s w hl hr hline
  have hstep := step_line hl hr hline
  refine ⟨fun i hi => ⟨fun t ht => ?_, fun f hf => ?_, exec_stops.1⟩, fun e he => ?_⟩
  · exact ⟨hstep.trans (runLine_cmd_next hi ht), exec_host (s := s.setResetIn s.resetIn.tail) hl ht⟩
  · exact hstep.trans (runLine_cmd_fault hi hf)
  · exact hstep.trans (hostWrite_done (by decide) (transact_write_cmd (issueCommand_of_decode_error he _)))

/-- The placed line is the one the host stands at, and its word is the command's. -/
theorem withFetchWord_line (s : State) (i : Instr) :
    (s.withFetchWord 32 (encode i).toNat).host.prog[s.host.line]? = some (wr 0x000 (encode i)) := by
  have hword : BitVec.ofNat 32 ((encode i).toNat % 2 ^ 32) = encode i := by
    rw [Nat.mod_eq_of_lt (encode i).isLt, BitVec.ofNat_toNat, BitVec.setWidth_eq]
  rw [State.withFetchWord, hword]
  exact placeLine_get ..

/-- Settles O8: the placed line is the next step's, and its word decodes to the command. -/
theorem placedCommandRunsNext : Obligations.PlacedCommandRunsNext := by
  intro s i hl
  have hstep : step (s.withFetchWord 32 (encode i).toNat) =
      runLine (wr 0x000 (encode i)) (s.withFetchWord 32 (encode i).toNat) :=
    step_line (s := s.withFetchWord 32 (encode i).toNat) hl nofun (withFetchWord_line s i)
  refine ⟨fun t ht => ?_, fun f hf => hstep.trans (runLine_cmd_fault (decode_encode i) hf)⟩
  have hhost := exec_host (s := s.withFetchWord 32 (encode i).toNat) hl ht
  rw [hstep, runLine_cmd_next (decode_encode i) ht, advance, hhost]
  rfl

/-- Settles O9: each kind of line by its own rule, on the state with the reset input read. -/
theorem hostLinesFollowTheNotation : Obligations.HostLinesFollowTheNotation := by
  intro s x hl hr hline
  have hstep := step_line hl hr hline
  refine ⟨?_, ?_, ?_, ?_, ?_, ?_⟩
  · rintro off v t rfl hwin h
    exact hstep.trans (hostWrite_done hwin h)
  · rintro off k v rfl hwin h
    exact hstep.trans (hostRead_data hwin h)
  · rintro k imm l n rfl h
    exact ⟨findLabel_get h, hstep.trans (runLine_beq (s := s.setResetIn s.resetIn.tail) h imm)⟩
  · rintro k imm l n rfl h
    exact ⟨findLabel_get h, hstep.trans (runLine_bne (s := s.setResetIn s.resetIn.tail) h imm)⟩
  · rintro l rfl
    exact hstep
  · rintro rfl
    exact hstep

/-- Settles O10: an access from 0x5000 on is not the block's, and an illegal build runs no step. -/
theorem stepRefusesWhatIsNotTheBlocks : Obligations.StepRefusesWhatIsNotTheBlocks := by
  refine ⟨fun s a v k hl hr hout hline => ?_, fun s hl => if_neg hl⟩
  rcases hline with hx | hx
  · exact (step_line hl hr hx).trans (onBus_outside hout _ _)
  · exact (step_line hl hr hx).trans (onBus_outside hout _ _)

end Sys2Proof.Machine
end

section
/-! PROOFS. No outcome depends on where the window stands (20_memory.md R72, 92_eei_decisions.md D2): every operation
commutes with moving the window. -/

namespace Sys2Proof.Machine

/-- An answer with its state, if it has one, changed by `g`. -/
def mapNext (g : State → State) : Result → Result
  | .next t => .next (g t)
  | .fault f => .fault f
  | .refused r => .refused r

theorem mapNext_withBytes (g : State → State) (r : Except Fault (List Byte)) (k : List Byte → Result) :
    mapNext g (withBytes r k) = withBytes r fun bs => mapNext g (k bs) := by
  cases r <;> rfl

section
variable (b : Nat) (s : State)

theorem exec_withBase (i : Instr) : exec i (withBase b s) = mapNext (withBase b) (exec i s) := by
  cases i <;>
    simp only [exec, execLoadN, execN0inv, execRr, execEncode, execDecode, execConvert, mapNext_withBytes,
      apply_ite (mapNext _)] <;>
    rfl

theorem issueCommand_withBase (v : Word) :
    issueCommand v (withBase b s) = mapNext (withBase b) (issueCommand v s) := by
  unfold issueCommand
  cases decode v with
  | error e => rfl
  | ok i => exact exec_withBase b s i

theorem writeTarget_withBase (v : Word) (g : Target) :
    writeTarget v (withBase b s) g = mapNext (withBase b) (writeTarget v s g) := by
  cases g with
  | cmd => exact issueCommand_withBase b s v
  | _ => rfl

theorem memWrite_withBase (a : Access) (v : Word) :
    memWrite a v (withBase b s) = mapNext (withBase b) (memWrite a v s) := by
  have hmap : windowMap (withBase b s).cfg a.off = windowMap s.cfg a.off := rfl
  unfold memWrite
  rw [hmap]
  by_cases ht : a.takes
  · rw [if_pos ht, if_pos ht]
    cases windowMap s.cfg a.off with
    | none => rfl
    | some g => exact writeTarget_withBase b s v g
  · rw [if_neg ht, if_neg ht]
    rfl

/-- The offset the block sees is the line's own, wherever the window stands. -/
theorem windowOffset_withBase (off : Nat) :
    windowOffset (withBase b s).cfg ((withBase b s).cfg.base + off) = windowOffset s.cfg (s.cfg.base + off) := by
  by_cases h : off < 0x5000
  · rw [windowOffset_in _ h, windowOffset_in _ h]
  · rw [windowOffset_out _ (not_lt.mp h), windowOffset_out _ (not_lt.mp h)]

theorem onBus_withBase {off : Nat} {k k' : Nat → Result} (h : ∀ o, k' o = mapNext (withBase b) (k o)) :
    onBus off (withBase b s) k' = mapNext (withBase b) (onBus off s k) := by
  rw [onBus, onBus, windowOffset_withBase]
  cases windowOffset s.cfg (s.cfg.base + off) with
  | none => rfl
  | some o => exact h o

theorem hostWrite_withBase (a : Access) (v : Word) :
    hostWrite a v (withBase b s) = mapNext (withBase b) (hostWrite a v s) := by
  refine onBus_withBase b s fun o => ?_
  simp only [transact, memWrite_withBase]
  cases memWrite { a with off := o } v s <;> rfl

theorem hostRead_withBase (a : Access) (k : Fin 8) :
    hostRead a k (withBase b s) = mapNext (withBase b) (hostRead a k s) := by
  refine onBus_withBase b s fun o => ?_
  simp only [transact, memRead_withBase]
  cases memRead { a with off := o } s <;> rfl

theorem hostBranch_withBase (c : Bool) (l : Nat) :
    hostBranch c l (withBase b s) = mapNext (withBase b) (hostBranch c l s) := by
  have hprog : (withBase b s).host.prog = s.host.prog := rfl
  cases c with
  | false => rfl
  | true =>
    rw [hostBranch, hostBranch, if_pos rfl, if_pos rfl, hprog]
    cases findLabel s.host.prog l <;> rfl

theorem runLine_withBase (x : HostLine) : runLine x (withBase b s) = mapNext (withBase b) (runLine x s) := by
  cases x with
  | wr a v => exact hostWrite_withBase b s a v
  | rd a k => exact hostRead_withBase b s a k
  | beq k imm l => exact hostBranch_withBase b s _ l
  | bne k imm l => exact hostBranch_withBase b s _ l
  | label l => rfl
  | halt => rfl

theorem hostStep_withBase : hostStep (withBase b s) = mapNext (withBase b) (hostStep s) := by
  have hhost : (withBase b s).host = s.host := rfl
  rw [hostStep, hostStep, hhost]
  cases s.host.prog[s.host.line]? with
  | none => rfl
  | some x => exact runLine_withBase b s x

theorem step_withBase : step (withBase b s) = mapNext (withBase b) (step s) := by
  by_cases hl : s.cfg.Legal
  · by_cases hr : s.resetIn.head? = some true
    · obtain ⟨rest, hrest⟩ := List.head?_eq_some_iff.mp hr
      rw [step_reset hl hrest, step_reset (s := withBase b s) hl hrest]
      rfl
    · rw [step_released hl hr, step_released (s := withBase b s) hl hr]
      exact hostStep_withBase b (s.setResetIn s.resetIn.tail)
  · rw [step, step, if_neg hl]
    exact if_neg hl

end

/-- Settles O36: each part of a step commutes with the move, so the step does. -/
theorem windowAddressIsInvisible : Obligations.WindowAddressIsInvisible := by
  intro b s
  rw [step_withBase]
  cases step s <;> rfl

end Sys2Proof.Machine
end

section
/-! PROOFS. Facts on their own: the table's words (30_encoding.md R80, R83), the record's byte layout (41_montgomery.md
R121 to R123) and the buffers' places (20_memory.md R61, R62). -/

namespace Sys2Proof.Machine

/-- Settles O13: five closed words. -/
theorem tableWordsDecode : Obligations.TableWordsDecode := by
  unfold Obligations.TableWordsDecode
  decide

/-- Byte `i` of the little-endian layout is bits `8i+7..8i` of the value (00_scope.md R14). -/
theorem getElem?_leBytes (v : Nat) {w i : Nat} (h : i < w) :
    (leBytes v w)[i]? = some (BitVec.ofNat 8 (v >>> (8 * i))) := by
  induction w generalizing v i with
  | zero => omega
  | succ w ih =>
    cases i with
    | zero => rfl
    | succ i =>
      have hshift : (v / 256) >>> (8 * i) = v >>> (8 * (i + 1)) := by
        rw [show 8 * (i + 1) = 8 + 8 * i by ring, Nat.shiftRight_add, Nat.shiftRight_eq_div_pow v 8]
      rw [leBytes, List.getElem?_cons_succ, ih _ (by omega), hshift]

/-- Settles O14: the value fits the width, and reversing PadBigEndian gives the little-endian layout. -/
theorem padAndReverseGiveTheRecordLayout : Obligations.PadAndReverseGiveTheRecordLayout := by
  intro v w hv
  rw [two_pow_eight_mul] at hv
  rw [reverseBytes_padBigEndian]
  exact ⟨padBigEndian_length v w, (beValue_beBytes v w).trans (Nat.mod_eq_of_lt hv), leValue_leBytes_of_lt hv,
    fun i hi => getElem?_leBytes v hi⟩

/-- Settles O37: a buffer starts and ends at a word, so a word that starts in it ends in it. -/
theorem buffersAreWholeWordsAndApart : Obligations.BuffersAreWholeWordsAndApart := by
  intro c hl
  refine ⟨bufSize_legal hl, fun b d off => inBuf_unique hl, fun b off h4 ⟨hlo, hhi⟩ => ?_⟩
  obtain ⟨hsize, -⟩ := bufSize_legal hl b
  have hbase := bufBase_aligned b
  exact ⟨by omega, by omega⟩

end Sys2Proof.Machine
end
